-- ==== Sys2Proof/Word.lean ====
section
/-!
DEFINITION. Word.lean: the bit-vector types of the block's ports and registers (10_state.md R20, R24).
-/

namespace Sys2Proof

/-- A command or result word (R80, R20). -/
abbrev Word := BitVec 32

/-- One byte, for a byte-wide carrier of a word (R68). -/
abbrev Byte := BitVec 8

/-- The argument field of a command: a position, a pin number or a slot index (R80, R82). -/
abbrev Arg := BitVec 8

/-- A pin number, `PIN_W` = 8 bits (R8). -/
abbrev Pin := BitVec 8

/-- A time in milliseconds, `TIME_W` = 32 bits, wrapping (R8, R9, R20). -/
abbrev Millis := BitVec 32

/-- The 2-bit code of an encoder sample (R111). -/
abbrev Code := BitVec 2

end Sys2Proof
end

