-- ==== Sys2Proof/Syntax.lean ====
section
/-!
DEFINITION. Syntax.lean: the instructions (every row of spec/opcode_table.json), what arrives at the block in one step,
and the names of the words the block ignores.
-/

namespace Sys2Proof

/-- One constructor per row of the opcode table (30_encoding.md R83; R81 for the decoder step). -/
inductive Instr
  | nop                          -- NOP, R209
  | readPos                      -- READ_POS, R141
  | drain                        -- DRAIN, R143
  | resetPos (p : Arg)           -- RESET_POS p, R146
  | readRaw                      -- READ_RAW, R145
  | readQdec                     -- READ_QDEC, R149
  | cfgClear                     -- CFG_CLEAR, R200
  | cfgAdd (p : Pin)             -- CFG_ADD p, R203
  | scan                         -- SCAN, R174
  | readSlot (i : Arg)           -- READ_SLOT i, R206
  | readSlotTs (i : Arg)         -- READ_SLOT_TS i, R207
  | readStatus                   -- READ_STATUS, R208
  | qdecEdge (a b : Bool)        -- QDEC_EDGE, one decoder step on the levels (a, b), R110
  deriving DecidableEq, Repr, Inhabited

/-- The levels on the input ports during one step (10_state.md R20): bit `p` of `btnIn` is `btn_in[p]`.
A level is a draw (R21); nothing constrains it. -/
structure Inputs where
  encA  : Bool
  encB  : Bool
  btnIn : BitVec 256
  now   : Millis
  deriving DecidableEq, Repr, Inhabited

/-- Which of the two agents takes a step (00_scope.md R10), with the word on `cmd` when it is the host port. -/
inductive Agent
  | decoder
  | hostPort (cmd : Word)
  deriving DecidableEq, Repr, Inhabited

/-- Everything a step takes from outside: the agent and the input levels (70_reset_and_hazards.md R294: "each with its
input draws"). -/
structure StepInput where
  agent  : Agent
  inputs : Inputs
  deriving DecidableEq, Repr, Inhabited

/-- What the decoder of the encoding reads: a command word in format `C` (R80) or an encoder sample in format `E` (R81),
channel A in bit 1. -/
inductive PortWord
  | command (w : Word)
  | event (c : Code)
  deriving DecidableEq, Repr, Inhabited

/-- Why a command word decodes to no command (30_encoding.md R84), in the order of R262. The block answers `IGNORED` to
the first three. -/
inductive DecodeError
  /-- `OP` is 0xC..0xF. -/
  | reservedOpcode
  /-- A bit of `MBZ` is set. -/
  | reservedBits
  /-- `ARG` is nonzero for an opcode that takes none. -/
  | argNotAllowed
  /-- Not four bytes: no command has another length (R80, R69). Only `decodeBytes` gives it. -/
  | notOneWord
  deriving DecidableEq, Repr

/-- The instruction's name in the opcode table. -/
def Instr.mnemonic : Instr → String
  | .nop => "NOP"
  | .readPos => "READ_POS"
  | .drain => "DRAIN"
  | .resetPos _ => "RESET_POS"
  | .readRaw => "READ_RAW"
  | .readQdec => "READ_QDEC"
  | .cfgClear => "CFG_CLEAR"
  | .cfgAdd _ => "CFG_ADD"
  | .scan => "SCAN"
  | .readSlot _ => "READ_SLOT"
  | .readSlotTs _ => "READ_SLOT_TS"
  | .readStatus => "READ_STATUS"
  | .qdecEdge _ _ => "QDEC_EDGE"

/-- The instruction's operands as numbers, in the order the assembler writes them (R88). -/
def Instr.operands : Instr → List Nat
  | .nop => []
  | .readPos => []
  | .drain => []
  | .resetPos p => [p.toNat]
  | .readRaw => []
  | .readQdec => []
  | .cfgClear => []
  | .cfgAdd p => [p.toNat]
  | .scan => []
  | .readSlot i => [i.toNat]
  | .readSlotTs i => [i.toNat]
  | .readStatus => []
  | .qdecEdge a b => [a.toNat, b.toNat]

/-- The word that opens an assembly line (R88): the mnemonic, but `EDGE` for a decoder step. -/
def Instr.asmWord : Instr → String
  | .qdecEdge _ _ => "EDGE"
  | i => i.mnemonic

end Sys2Proof
end

