-- ==== Sys2Proof/Config.lean ====
section
/-!
DEFINITION. Config.lean: the parameters of the block (00_scope.md R8) and the free values its inputs are drawn from.
-/

namespace Sys2Proof

/-- `POS_MOD`: the positions of the ring (R8). -/
abbrev Config.posMod : Nat := 100

/-- `PULSES_PER_CLICK` (R8). -/
abbrev Config.pulsesPerClick : Nat := 4

/-- `MAX_SLOTS` (R8). -/
abbrev Config.maxSlots : Nat := 12

/-- `DEBOUNCE_MS` (R8). -/
abbrev Config.debounceMs : Nat := 50

/-- `ENC_PIN_A` (R8). -/
abbrev Config.encPinA : Pin := 0

/-- `ENC_PIN_B` (R8). -/
abbrev Config.encPinB : Pin := 1

/-- `PIN_NONE`, the pin of an unconfigured slot (R8). -/
abbrev Config.pinNone : Pin := 0xFF

/-- `HEARTBEAT_MS`, a period of the host (R8, R239). -/
abbrev Config.heartbeatMs : Nat := 2000

/-- `LINE_MAX`, the host's line buffer (R8); no rule of the block uses it (R6). -/
abbrev Config.lineMax : Nat := 256

/-- The parameters R8 marks `OPEN`, and the polarity `INVERT`, which R8 and R114 make configurable. They are the model's
argument: an instantiation stands in `State.params` and no step writes it (R35). -/
structure Params where
  pinMin   : Nat         -- PIN_MIN
  pinMax   : Nat         -- PIN_MAX
  ledPins  : List Pin    -- LED_PINS
  testPins : List Pin    -- TEST_PINS
  invert   : Bool        -- INVERT
  deriving DecidableEq, Repr

/-- The instantiation that 95_test_vectors.md uses ("an example, not a claim about the board"), with `INVERT` = 1 (R8).
DESIGN CHOICE, unsafe (log 4): the six test pins are the model's, any six that R8 and D21 admit. -/
def Config.exampleParams : Params where
  pinMin   := 0
  pinMax   := 29
  ledPins  := [25]
  testPins := [2, 3, 4, 5, 6, 7]
  invert   := true

/-- The input levels when reset is released, from which `prev` is formed (70_reset_and_hazards.md R291): a draw (R21), so
a free value (log 3; safe). -/
opaque Config.resetInputs : Inputs

/-- The `n`-th step input that comes from the environment when none has been placed: which agent steps, with which command
and levels. A draw (R21, R61), so a free value (log 2; safe). -/
opaque Config.drawStep : Nat → StepInput

end Sys2Proof
end

