-- ==== Sys2Proof/Decode.lean ====
section
/-!
DEFINITION. Decode.lean: the decoder and the encoder of command words and encoder events (30_encoding.md), and the
opcode table as data.
-/

namespace Sys2Proof

/-- `code(a, b)`: channel A in bit 1, channel B in bit 0 (40_qdec_fsm.md R111). -/
def encoderCode (a b : Bool) : Code := BitVec.ofBool a ++ BitVec.ofBool b

/-- `OP`, bits 31..28 (R80). -/
def opField (w : Word) : BitVec 4 := w.extractLsb' 28 4

/-- `MBZ`, bits 27..8 (R80). -/
def mbzField (w : Word) : BitVec 20 := w.extractLsb' 8 20

/-- `ARG`, bits 7..0 (R80). -/
def argField (w : Word) : Arg := w.extractLsb' 0 8

/-- The command an opcode names, none for the reserved 0xC..0xF (R83). -/
def commandOf (op : BitVec 4) (arg : Arg) : Option Instr :=
  match op.toNat with
  | 0x0 => some .nop
  | 0x1 => some .readPos
  | 0x2 => some .drain
  | 0x3 => some (.resetPos arg)
  | 0x4 => some .readRaw
  | 0x5 => some .readQdec
  | 0x6 => some .cfgClear
  | 0x7 => some (.cfgAdd arg)
  | 0x8 => some .scan
  | 0x9 => some (.readSlot arg)
  | 0xA => some (.readSlotTs arg)
  | 0xB => some .readStatus
  | _ => none

/-- The four opcodes that take an argument (R82). -/
def takesArg (op : BitVec 4) : Bool :=
  match op.toNat with
  | 0x3 => true
  | 0x7 => true
  | 0x9 => true
  | 0xA => true
  | _ => false

/-- Decoding of a command word, total (R84, R85): reserved opcode, then `MBZ`, then `ARG` (R262). -/
def decodeCommand (w : Word) : Except DecodeError Instr :=
  match commandOf (opField w) (argField w) with
  | none => .error .reservedOpcode
  | some i =>
    if mbzField w ≠ 0 then .error .reservedBits
    else if takesArg (opField w) = false ∧ argField w ≠ 0 then .error .argNotAllowed
    else .ok i

/-- Decoding of whatever arrives at the block: a command word (R80) or an encoder event (R81). -/
def decode : PortWord → Except DecodeError Instr
  | .command w => decodeCommand w
  | .event c => .ok (.qdecEdge (c.getLsbD 1) (c.getLsbD 0))

/-- The bytes of a word on a byte-wide carrier, bits 7..0 first (20_memory.md R68). -/
def bytesOfWord (w : Word) : List Byte :=
  [w.extractLsb' 0 8, w.extractLsb' 8 8, w.extractLsb' 16 8, w.extractLsb' 24 8]

/-- Decoding of the bytes of a command, total on any bytes: exactly one word (R68, R69). -/
def decodeBytes : List Byte → Except DecodeError Instr
  | [b0, b1, b2, b3] => decode (.command (b3 ++ b2 ++ b1 ++ b0))
  | _ => .error .notOneWord

/-- The instruction of a row of spec/opcode_table.json, whose bits are `w`: a row of 32 bits is a command word, carried as
bytes; the row `QDEC_EDGE` has the two bits of format `E` only (at most one byte, log 10). -/
def decodeTableWord (nbits w : Nat) : Option Instr :=
  if nbits ≤ 8 then
    if w < 4 then (decode (.event (BitVec.ofNat 2 w))).toOption else none
  else
    if w < 2 ^ 32 then (decodeBytes (bytesOfWord (BitVec.ofNat 32 w))).toOption else none

/-- The command word `(OP << 28) | ARG` (R88). -/
def commandWord (op : BitVec 4) (arg : Arg) : Word := op ++ (0 : BitVec 20) ++ arg

/-- The encoding of an instruction (R80, R81, R83). -/
def encode : Instr → PortWord
  | .nop => .command (commandWord 0x0 0)
  | .readPos => .command (commandWord 0x1 0)
  | .drain => .command (commandWord 0x2 0)
  | .resetPos p => .command (commandWord 0x3 p)
  | .readRaw => .command (commandWord 0x4 0)
  | .readQdec => .command (commandWord 0x5 0)
  | .cfgClear => .command (commandWord 0x6 0)
  | .cfgAdd p => .command (commandWord 0x7 p)
  | .scan => .command (commandWord 0x8 0)
  | .readSlot i => .command (commandWord 0x9 i)
  | .readSlotTs i => .command (commandWord 0xA i)
  | .readStatus => .command (commandWord 0xB 0)
  | .qdecEdge a b => .event (encoderCode a b)

/-- One row of the opcode table: a word is of the row when it agrees with `pattern` on the bits of `mask`. -/
structure OpcodeRow where
  mnemonic : String
  pattern  : Word
  mask     : Word
  deriving DecidableEq, Repr

/-- The word is one of the row's words. -/
def OpcodeRow.accepts (r : OpcodeRow) (w : Word) : Bool := (w &&& r.mask) == r.pattern

/-- The command rows of spec/opcode_table.json, its `match` and `mask` columns; written apart from `decodeCommand`, which
follows R84. -/
def opcodeTable : List OpcodeRow :=
  [ ⟨"NOP", 0x00000000, 0xFFFFFFFF⟩,
    ⟨"READ_POS", 0x10000000, 0xFFFFFFFF⟩,
    ⟨"DRAIN", 0x20000000, 0xFFFFFFFF⟩,
    ⟨"RESET_POS", 0x30000000, 0xFFFFFF00⟩,
    ⟨"READ_RAW", 0x40000000, 0xFFFFFFFF⟩,
    ⟨"READ_QDEC", 0x50000000, 0xFFFFFFFF⟩,
    ⟨"CFG_CLEAR", 0x60000000, 0xFFFFFFFF⟩,
    ⟨"CFG_ADD", 0x70000000, 0xFFFFFF00⟩,
    ⟨"SCAN", 0x80000000, 0xFFFFFFFF⟩,
    ⟨"READ_SLOT", 0x90000000, 0xFFFFFF00⟩,
    ⟨"READ_SLOT_TS", 0xA0000000, 0xFFFFFF00⟩,
    ⟨"READ_STATUS", 0xB0000000, 0xFFFFFFFF⟩ ]

/-- The row's mnemonic for every row that has `w` among its words. -/
def rowsOf (w : Word) : List String := (opcodeTable.filter (·.accepts w)).map (·.mnemonic)

/-- The assembler (R88): a line's opening word and its numbers to an instruction; none for a number out of its field or a
word of no command. -/
def assemble (word : String) (args : List Nat) : Option Instr :=
  match args with
  | [] =>
    [Instr.nop, .readPos, .drain, .readRaw, .readQdec, .cfgClear, .scan, .readStatus].find? (·.asmWord == word)
  | [n] =>
    if n < 256 then
      [Instr.resetPos (BitVec.ofNat 8 n), .cfgAdd (BitVec.ofNat 8 n), .readSlot (BitVec.ofNat 8 n),
        .readSlotTs (BitVec.ofNat 8 n)].find? (·.asmWord == word)
    else none
  | [a, b] =>
    if a < 2 ∧ b < 2 then [Instr.qdecEdge (a == 1) (b == 1)].find? (·.asmWord == word) else none
  | _ => none

end Sys2Proof
end

