-- ==== Sys2Proof/Machine/State.lean ====
section
/-!
DEFINITION. Machine/State.lean: the registers of the block (10_state.md R24), the model's own fields, the reasons a step
can stop, and the state after reset (70_reset_and_hazards.md R290, R291).
-/

namespace Sys2Proof.Machine

/-- A response code (00_scope.md R14). Code 3 is never produced, so it has no name here (log 7). -/
inductive Resp
  | ok
  | rejected
  | ignored
  deriving DecidableEq, Repr, Inhabited

/-- The two bits on the `resp` port (R14). -/
def Resp.code : Resp → BitVec 2
  | .ok => 0
  | .rejected => 1
  | .ignored => 2

/-- One slot record of the debounce array (10_state.md R24, R29). -/
structure Slot where
  /-- the bound pin, or `PIN_NONE` -/
  pin     : Pin
  /-- 1 = configured and scanned -/
  enabled : Bool
  /-- the confirmed debounced state, 1 = pressed -/
  stable  : Bool
  /-- the last raw reading, 1 = pressed -/
  raw     : Bool
  /-- the time of the last raw change -/
  ts      : Millis
  deriving DecidableEq, Repr

/-- The unconfigured slot (R30, R200). -/
def Slot.unconfigured : Slot where
  pin     := Config.pinNone
  enabled := false
  stable  := false
  raw     := false
  ts      := 0

/-- Why the block stops with a fault: never. "The block raises no exception and has no trap mechanism"
(60_exceptions.md R260), so there is no constructor (log 13). -/
inductive Fault
  deriving DecidableEq, Repr

/-- Why the model gives a step no meaning. -/
inductive Refusal
  /-- Raised by `exec` for an instruction without a meaning; no arm uses it. Safe: the model stops. -/
  | notModelled (mnemonic : String)
  /-- Raised by `step` when `params` breaks a constraint of 00_scope.md R8 ("It must refuse any instantiation that breaks
  the stated constraint"). Safe: the model stops. -/
  | illegalInstantiation
  /-- Raised by `step` when `position` holds an encoding 100..127 (93_implementation_defined.md: "refuse"; unreachable).
  Safe: the model stops. -/
  | positionEncoding
  /-- Raised by `step` when `pulses` holds the encoding of -4 (93_implementation_defined.md: "refuse"; unreachable).
  Safe: the model stops. -/
  | pulsesEncoding
  /-- Raised by `step` when `count` holds 13..15 (10_state.md R24: "values 0..12"; unreachable; log 6).
  Safe: the model stops. -/
  | countEncoding
  deriving DecidableEq, Repr

/-- The state of the block. The fields up to `result` are the registers of R24; the last four are the model's own. -/
structure State where
  /-- `prev`: the code of the last sample the decoder processed (R25) -/
  prev     : Code
  /-- `pulses`: the pulse accumulator, two's complement (R26) -/
  pulses   : BitVec 3
  /-- `clicks`: the pending clicks, two's complement (R27) -/
  clicks   : BitVec 24
  /-- `position`: the ring position (R28) -/
  position : BitVec 7
  /-- `count`: the number of configured slots (R24) -/
  count    : BitVec 4
  /-- `slot[0]` .. `slot[11]` (R29) -/
  slots    : Vector Slot 12
  /-- `resp`: the response code of the last command (R14) -/
  resp     : Resp
  /-- `result`: the result word of the last command -/
  result   : Word
  /-- MODEL: the levels on the input ports in the present step (R20; log 3, log 9) -/
  inputs   : Inputs
  /-- MODEL: the step inputs placed for the coming steps, the next one first (log 1) -/
  pending  : List StepInput
  /-- MODEL: how many step inputs have been drawn from `Config.drawStep` (log 2) -/
  draws    : Nat
  /-- MODEL: the instantiation of the parameters; no step writes it (R8, R35; log 4) -/
  params   : Params
  deriving DecidableEq, Repr

/-- The state when reset is released at the input levels `inputs`, for the instantiation `P` (R290; `prev` by R291). -/
def State.atRelease (P : Params) (inputs : Inputs) : State where
  prev     := encoderCode inputs.encA inputs.encB
  pulses   := 0
  clicks   := 0
  position := 0
  count    := 0
  slots    := Vector.replicate 12 Slot.unconfigured
  resp     := .ok
  result   := 0
  inputs   := inputs
  pending  := []
  draws    := 0
  params   := P

/-- The machine right after reset: released at the drawn levels `Config.resetInputs` (log 3), for the example instantiation
(log 4), nothing placed (log 1). -/
def State.reset : State := State.atRelease Config.exampleParams Config.resetInputs

end Sys2Proof.Machine
end

