-- ==== Sys2Proof/Machine/Flags.lean ====
section
/-!
DEFINITION. Machine/Flags.lean: the response of a command, the block's only status (10_state.md R32), and the layouts of
the result words (30_encoding.md R87).
-/

namespace Sys2Proof.Machine

/-- `respond(code, value)` (00_scope.md R13). -/
def respond (code : Resp) (value : Word) (s : State) : State := { s with resp := code, result := value }

/-- The answer to a word of no command or to an argument outside its domain: `IGNORED`, 0 (R84, R14). -/
def ignore (s : State) : State := respond .ignored 0 s

/-- Why `CFG_ADD` is rejected, in `result[1:0]` (R87): 1 = array full, 2 = pin out of range, 3 = pin reserved. -/
def reasonFull : Word := 1

/-- Reason 2 of R87. -/
def reasonRange : Word := 2

/-- Reason 3 of R87. -/
def reasonReserved : Word := 3

/-- `READ_POS`, `RESET_POS`: the position in [6:0] (R87). -/
def positionWord (q : BitVec 7) : Word := (0 : BitVec 25) ++ q

/-- `DRAIN`: clicks in [31:8], position in [6:0] (R87, R143). -/
def drainWord (c : BitVec 24) (q : BitVec 7) : Word := c ++ (0 : BitVec 1) ++ q

/-- `READ_RAW`: `enc_a` in [1], `enc_b` in [0] (R87, R145). -/
def rawWord (a b : Bool) : Word := (0 : BitVec 30) ++ encoderCode a b

/-- `READ_QDEC`: pulses in [6:4], prev in [1:0] (R87, R149). -/
def qdecWord (pulses : BitVec 3) (prev : Code) : Word := (0 : BitVec 25) ++ pulses ++ (0 : BitVec 2) ++ prev

/-- The twelve bits `f 11` .. `f 0`, slot 0 in bit 0 (R87, R174). -/
def slotBits (f : Fin 12 → Bool) : BitVec 12 :=
  BitVec.ofBool (f 11) ++ BitVec.ofBool (f 10) ++ BitVec.ofBool (f 9) ++ BitVec.ofBool (f 8) ++ BitVec.ofBool (f 7) ++
    BitVec.ofBool (f 6) ++ BitVec.ofBool (f 5) ++ BitVec.ofBool (f 4) ++ BitVec.ofBool (f 3) ++ BitVec.ofBool (f 2) ++
    BitVec.ofBool (f 1) ++ BitVec.ofBool (f 0)

/-- `SCAN`: stable bits in [23:12], edge bits in [11:0] (R87, R174). -/
def scanWord (stable edges : BitVec 12) : Word := (0 : BitVec 8) ++ stable ++ edges

/-- `READ_SLOT`: enabled in [31], stable in [30], raw in [29], pin in [7:0] (R87, R206). -/
def slotWord (sl : Slot) : Word :=
  BitVec.ofBool sl.enabled ++ BitVec.ofBool sl.stable ++ BitVec.ofBool sl.raw ++ (0 : BitVec 21) ++ sl.pin

/-- `READ_STATUS`: `MAX_SLOTS` in [15:8], count in [3:0] (R87, R208). -/
def statusWord (count : BitVec 4) : Word :=
  (0 : BitVec 16) ++ BitVec.ofNat 8 Config.maxSlots ++ (0 : BitVec 4) ++ count

/-- `CFG_ADD`: the index of the slot written in [3:0] (R87, R203). -/
def indexWord (i : BitVec 4) : Word := (0 : BitVec 28) ++ i

end Sys2Proof.Machine
end

