-- ==== Sys2Proof/Machine/Operands.lean ====
section
/-!
DEFINITION. Machine/Operands.lean: how an argument becomes a position, a slot index or a pin (30_encoding.md R82), and the
pin checks (43_slot_config.md R201, R205).
-/

namespace Sys2Proof.Machine

/-- The argument of `RESET_POS` as a position; none outside 0..99 (R82, R146). -/
def positionArg (p : Arg) : Option (BitVec 7) :=
  if p.toNat < Config.posMod then some (BitVec.ofNat 7 p.toNat) else none

/-- The argument of `READ_SLOT` and `READ_SLOT_TS` as a slot index; none outside 0..11 (R82, R206). -/
def slotArg (i : Arg) : Option (Fin 12) :=
  if h : i.toNat < 12 then some ⟨i.toNat, h⟩ else none

/-- `valid_pin(p)`: `PIN_MIN <= p <= PIN_MAX` (R201). -/
def validPin (P : Params) (p : Pin) : Bool := decide (P.pinMin ≤ p.toNat) && decide (p.toNat ≤ P.pinMax)

/-- `reserved(p)`: an encoder pin or an LED pin (R205). -/
def reservedPin (P : Params) (p : Pin) : Bool :=
  p == Config.encPinA || p == Config.encPinB || P.ledPins.contains p

/-- A pin that `CFG_ADD` binds while a slot is free: in range and not reserved (R203). -/
def acceptedPin (P : Params) (p : Pin) : Bool := validPin P p && !reservedPin P p

end Sys2Proof.Machine
end

