-- ==== Sys2Proof/Machine/Ops.lean ====
section
/-!
DEFINITION. Machine/Ops.lean: the named operations over the input ports and the registers. The block takes no exception and
returns from none (60_exceptions.md R260), so there is no such operation here.
-/

namespace Sys2Proof.Machine

/-- The input ports carry these levels in the present step (10_state.md R20). -/
def setInputs (inp : Inputs) (s : State) : State := { s with inputs := inp }

/-- `sample_enc()` (00_scope.md R13), as the code of R111. -/
def sampleEnc (s : State) : Code := encoderCode s.inputs.encA s.inputs.encB

/-- `sample_btn(p)`: the level of button input `p` (R13). -/
def sampleBtn (inp : Inputs) (p : Pin) : Bool := inp.btnIn.getLsbD p.toNat

/-- The decoder's writes (40_qdec_fsm.md R110). -/
def setDecoder (prev : Code) (pulses : BitVec 3) (position : BitVec 7) (clicks : BitVec 24) (s : State) : State :=
  { s with prev := prev, pulses := pulses, position := position, clicks := clicks }

/-- `clicks <- 0` (41_encoder_access.md R143). -/
def clearClicks (s : State) : State := { s with clicks := 0 }

/-- `position <- p`, `pulses <- 0`, `clicks <- 0` (R146). -/
def setPosition (p : BitVec 7) (s : State) : State := { s with position := p, pulses := 0, clicks := 0 }

/-- Every slot unconfigured, `count <- 0` (43_slot_config.md R200). -/
def clearSlots (s : State) : State := { s with slots := Vector.replicate 12 Slot.unconfigured, count := 0 }

/-- A newly bound slot at time `t` (R203). -/
def boundSlot (p : Pin) (t : Millis) : Slot where
  pin     := p
  enabled := true
  stable  := false
  raw     := false
  ts      := t

/-- `slot[count] <- sl`, `count <- count + 1` (R203). At the unreachable counts 12..15 no slot is written (log 6). -/
def appendSlot (sl : Slot) (s : State) : State :=
  { s with slots := s.slots.setIfInBounds s.count.toNat sl, count := s.count + 1 }

/-- Every slot becomes `f` of itself (42_debounce_scan.md R174). -/
def mapSlots (f : Slot → Slot) (s : State) : State := { s with slots := Vector.ofFn fun i => f s.slots[i] }

end Sys2Proof.Machine
end

