-- ==== Sys2Proof/Machine/Debounce.lean ====
section
/-!
DEFINITION. Machine/Debounce.lean: the debounce lane and the scan (42_debounce_scan.md).
-/

namespace Sys2Proof.Machine

/-- Active low: level 0 is pressed (R171). -/
def pressed (level : Bool) : Bool := !level

/-- A raw change re-arms the window (R172). -/
def rearm (t : Millis) (r : Bool) (sl : Slot) : Slot := if r ≠ sl.raw then { sl with raw := r, ts := t } else sl

/-- `(t - ts) mod 2^32`, the elapsed time (R173). -/
def elapsed (t : Millis) (sl : Slot) : Nat := (t - sl.ts).toNat

/-- The window has passed and the raw reading differs from the stable state (R173). -/
def accepts (t : Millis) (sl : Slot) : Bool := decide (Config.debounceMs ≤ elapsed t sl) && (sl.raw != sl.stable)

/-- Acceptance: the stable state follows the raw reading (R173). -/
def settle (t : Millis) (sl : Slot) : Slot := if accepts t sl then { sl with stable := sl.raw } else sl

/-- The lane of an enabled slot at time `t` with reading `r`: R172, then R173 on its outcome. -/
def laneSlot (t : Millis) (r : Bool) (sl : Slot) : Slot := settle t (rearm t r sl)

/-- The lane's edge event (R173). -/
def laneEdge (t : Millis) (r : Bool) (sl : Slot) : Bool := accepts t (rearm t r sl)

/-- A slot after a scan on these levels: only enabled slots move (R174). -/
def scanSlot (inp : Inputs) (sl : Slot) : Slot :=
  if sl.enabled then laneSlot inp.now (pressed (sampleBtn inp sl.pin)) sl else sl

/-- A slot's edge bit in a scan on these levels (R174). -/
def scanEdge (inp : Inputs) (sl : Slot) : Bool :=
  if sl.enabled then laneEdge inp.now (pressed (sampleBtn inp sl.pin)) sl else false

/-- The answer to a scan of these slots: the stable bits after it and its edge bits (R174). -/
def scanResult (inp : Inputs) (slots : Vector Slot 12) : Word :=
  scanWord (slotBits fun i => (scanSlot inp slots[i]).stable) (slotBits fun i => scanEdge inp slots[i])

/-- `SCAN` (R174): one time value for the whole scan; no lane reads another, so the ascending order shows nowhere (R175;
log 14). -/
def execScan (s : State) : Host.Outcome State Fault Refusal :=
  .next (respond .ok (scanResult s.inputs s.slots) (mapSlots (scanSlot s.inputs) s))

/-- The source's two-state view of a configured slot (10_state.md R31). -/
inductive LaneView
  | stable (s : Bool)
  | settling (candidate : Bool) (since : Millis)
  deriving DecidableEq, Repr

/-- The projection of R31: `Stable(s)` when `raw = stable = s`, else `Settling(raw, ts)`. -/
def laneView (sl : Slot) : LaneView := if sl.raw = sl.stable then .stable sl.stable else .settling sl.raw sl.ts

end Sys2Proof.Machine
end

