-- ==== Sys2Proof/Machine/Encoder.lean ====
section
/-!
DEFINITION. Machine/Encoder.lean: the encoder state access commands (41_encoder_access.md).
-/

namespace Sys2Proof.Machine

/-- `READ_POS` (R141). -/
def execReadPos (s : State) : Host.Outcome State Fault Refusal :=
  .next (respond .ok (positionWord s.position) s)

/-- `DRAIN` (R143): the pending clicks and the position of one instant, and the clicks cleared. -/
def execDrain (s : State) : Host.Outcome State Fault Refusal :=
  .next (respond .ok (drainWord s.clicks s.position) (clearClicks s))

/-- `RESET_POS p` (R146); `prev` stays (R147). -/
def execResetPos (p : Arg) (s : State) : Host.Outcome State Fault Refusal :=
  match positionArg p with
  | none => .next (ignore s)
  | some q => .next (respond .ok (positionWord q) (setPosition q s))

/-- `READ_RAW` (R145): no decoder step, `prev` stays. -/
def execReadRaw (s : State) : Host.Outcome State Fault Refusal :=
  .next (respond .ok (rawWord s.inputs.encA s.inputs.encB) s)

/-- `READ_QDEC` (R149). -/
def execReadQdec (s : State) : Host.Outcome State Fault Refusal :=
  .next (respond .ok (qdecWord s.pulses s.prev) s)

end Sys2Proof.Machine
end

