-- ==== Sys2Proof/Machine/Qdec.lean ====
section
/-!
DEFINITION. Machine/Qdec.lean: the quadrature decoder (40_qdec_fsm.md).
-/

namespace Sys2Proof.Machine

/-- The transition table `T`, indexed 0..15 (R113). -/
def transitionTable : List Int := [0, -1, 1, 0, 1, 0, 0, -1, -1, 0, 0, 1, 0, 1, -1, 0]

/-- `idx = {prev, cur}` (R112). -/
def transitionIndex (prev cur : Code) : BitVec 4 := prev ++ cur

/-- `d = T[idx]` (R113). -/
def transition (prev cur : Code) : Int := transitionTable.getD (transitionIndex prev cur).toNat 0

/-- The move of the accumulator: `-d` when `INVERT` = 1, `+d` when it is 0 (R114). -/
def pulseMove (invert : Bool) (prev cur : Code) : Int :=
  if invert then -transition prev cur else transition prev cur

/-- The moved accumulator `p1` (R114). -/
def movedPulses (invert : Bool) (prev : Code) (pulses : BitVec 3) (cur : Code) : Int :=
  pulses.toInt + pulseMove invert prev cur

/-- The normalisation at `p1`: +1 at +4, -1 at -4, else none (R115). -/
def clickOf (p1 : Int) : Int :=
  if p1 = Config.pulsesPerClick then 1 else if p1 = -Config.pulsesPerClick then -1 else 0

/-- `pulses` after the step: 0 at ±4, else `p1` (R115). -/
def settledPulses (p1 : Int) : BitVec 3 := if clickOf p1 = 0 then BitVec.ofInt 3 p1 else 0

/-- `(position + n) mod POS_MOD`, true modulo (00_scope.md R12, R117); unchanged when `n` = 0. -/
def advancePosition (position : BitVec 7) (n : Int) : BitVec 7 :=
  if n = 0 then position else BitVec.ofInt 7 ((position.toNat + n) % Config.posMod)

/-- `wrap_24(clicks + n)` (R12, R117). -/
def addClicks (clicks : BitVec 24) (n : Int) : BitVec 24 := BitVec.ofInt 24 (clicks.toInt + n)

/-- One decoder step on the code `cur` (R110). `prev` is written whatever the transition is (R116). -/
def decoderStep (cur : Code) (s : State) : State :=
  let p1 := movedPulses s.params.invert s.prev s.pulses cur
  setDecoder cur (settledPulses p1) (advancePosition s.position (clickOf p1)) (addClicks s.clicks (clickOf p1)) s

/-- `QDEC_EDGE` (R110): `resp` and `result` are not touched. -/
def execQdecEdge (a b : Bool) (s : State) : Host.Outcome State Fault Refusal :=
  .next (decoderStep (encoderCode a b) s)

end Sys2Proof.Machine
end

