-- ==== Sys2Proof/Machine/SlotConfig.lean ====
section
/-!
DEFINITION. Machine/SlotConfig.lean: slot configuration and status commands (43_slot_config.md).
-/

namespace Sys2Proof.Machine

/-- `NOP` (R209). -/
def execNop (s : State) : Host.Outcome State Fault Refusal :=
  .next (respond .ok 0 s)

/-- `CFG_CLEAR` (R200). -/
def execCfgClear (s : State) : Host.Outcome State Fault Refusal :=
  .next (respond .ok 0 (clearSlots s))

/-- Why a pin is not bound, none when it is: full, then range, then reserved (R203, R204). DESIGN CHOICE, unsafe (log 15):
with `PIN_MIN` = 1 and pin 1 the rule's pseudocode gives reason 3 and its corner-case line reason 2; the pseudocode is
followed. -/
def bindRefusal (P : Params) (count : BitVec 4) (p : Pin) : Option Word :=
  if count.toNat = Config.maxSlots then some reasonFull
  else if validPin P p = false then some reasonRange
  else if reservedPin P p then some reasonReserved
  else none

/-- `CFG_ADD p` (R203). A pin already bound is no reason to reject (R202). -/
def execCfgAdd (p : Pin) (s : State) : Host.Outcome State Fault Refusal :=
  match bindRefusal s.params s.count p with
  | some reason => .next (respond .rejected reason s)
  | none => .next (respond .ok (indexWord s.count) (appendSlot (boundSlot p s.inputs.now) s))

/-- `READ_SLOT i` (R206). -/
def execReadSlot (i : Arg) (s : State) : Host.Outcome State Fault Refusal :=
  match slotArg i with
  | none => .next (ignore s)
  | some k => .next (respond .ok (slotWord s.slots[k]) s)

/-- `READ_SLOT_TS i` (R207). -/
def execReadSlotTs (i : Arg) (s : State) : Host.Outcome State Fault Refusal :=
  match slotArg i with
  | none => .next (ignore s)
  | some k => .next (respond .ok s.slots[k].ts s)

/-- `READ_STATUS` (R208). -/
def execReadStatus (s : State) : Host.Outcome State Fault Refusal :=
  .next (respond .ok (statusWord s.count) s)

end Sys2Proof.Machine
end

