-- ==== Sys2Proof/Machine/Dispatch.lean ====
section
/-!
DEFINITION. Machine/Dispatch.lean: one arm per constructor of Instr.
-/

namespace Sys2Proof.Machine

def exec (i : Instr) (s : State) : Host.Outcome State Fault Refusal :=
  match i with
  | .nop => Sys2Proof.Machine.execNop s
  | .readPos => Sys2Proof.Machine.execReadPos s
  | .drain => Sys2Proof.Machine.execDrain s
  | .resetPos p => Sys2Proof.Machine.execResetPos p s
  | .readRaw => Sys2Proof.Machine.execReadRaw s
  | .readQdec => Sys2Proof.Machine.execReadQdec s
  | .cfgClear => Sys2Proof.Machine.execCfgClear s
  | .cfgAdd p => Sys2Proof.Machine.execCfgAdd p s
  | .scan => Sys2Proof.Machine.execScan s
  | .readSlot k => Sys2Proof.Machine.execReadSlot k s
  | .readSlotTs k => Sys2Proof.Machine.execReadSlotTs k s
  | .readStatus => Sys2Proof.Machine.execReadStatus s
  | .qdecEdge a b => Sys2Proof.Machine.execQdecEdge a b s

end Sys2Proof.Machine
end

