-- ==== Sys2Proof/WellFormed.lean ====
section
/-!
DEFINITION. WellFormed.lean: arguments in their domain (30_encoding.md R82) and legal instantiations of the parameters
(00_scope.md R8, with D21 for the test pins). A term that fails a check: Tests/Slice0.lean has one for each.
-/

namespace Sys2Proof

/-- The argument is in the instruction's domain (R82): a position below 100, a slot index below 12; every pin number is an
argument of `CFG_ADD`. An instruction outside its domain still runs: it answers `IGNORED`. -/
def Instr.inDomain : Instr → Bool
  | .nop => true
  | .readPos => true
  | .drain => true
  | .resetPos p => decide (p.toNat < Config.posMod)
  | .readRaw => true
  | .readQdec => true
  | .cfgClear => true
  | .cfgAdd _ => true
  | .scan => true
  | .readSlot i => decide (i.toNat < Config.maxSlots)
  | .readSlotTs i => decide (i.toNat < Config.maxSlots)
  | .readStatus => true
  | .qdecEdge _ _ => true

/-- `PIN_MIN <= 2`, `3 <= PIN_MAX <= 99` (R8, D19). -/
def Params.rangeLegal (P : Params) : Bool :=
  decide (P.pinMin ≤ 2) && decide (3 ≤ P.pinMax) && decide (P.pinMax ≤ 99)

/-- `LED_PINS` is a set of 1 or 3 pins (R8, D20): no pin is listed twice. -/
def Params.ledCountLegal (P : Params) : Bool :=
  (P.ledPins.length == 1 || P.ledPins.length == 3) && decide P.ledPins.Nodup

/-- `LED_PINS` contains neither 2 nor 3 (R8, D20). -/
def Params.ledPinsLegal (P : Params) : Bool := !P.ledPins.contains 2 && !P.ledPins.contains 3

/-- `TEST_PINS` is a list of exactly 6 pins (R8). -/
def Params.testCountLegal (P : Params) : Bool := P.testPins.length == 6

/-- Each test pin is valid and not reserved (D21: "so all six bind"). -/
def Params.testPinsLegal (P : Params) : Bool := P.testPins.all (Machine.acceptedPin P)

/-- The instantiation keeps every constraint R8 states; `INVERT` is free (R114). -/
def Params.legal (P : Params) : Bool :=
  P.rangeLegal && P.ledCountLegal && P.ledPinsLegal && P.testCountLegal && P.testPinsLegal

end Sys2Proof
end

