-- ==== Sys2Proof/Machine/Fetch.lean ====
section
/-!
DEFINITION. Machine/Fetch.lean: how a step comes to its instruction. The block fetches nothing (20_memory.md R71): commands
arrive on `cmd` (10_state.md R23), decoder steps on the encoder inputs, one step at a time (R60, R61).
-/

namespace Sys2Proof.Machine

/-- What the stepping agent reads: the word on `cmd`, or the encoder sample (R10, R80, R81). -/
def portWord (e : StepInput) : PortWord :=
  match e.agent with
  | .decoder => .event (encoderCode e.inputs.encA e.inputs.encB)
  | .hostPort w => .command w

/-- Why the model gives this state no step, none for every state a run reaches: an illegal instantiation (00_scope.md R8)
or an encoding that is never stored (93_implementation_defined.md section 1; R24 for `count`; log 5, log 6). -/
def refusalOf (s : State) : Option Refusal :=
  if s.params.legal = false then some .illegalInstantiation
  else if Config.posMod ≤ s.position.toNat then some .positionEncoding
  else if s.pulses.toInt = -Config.pulsesPerClick then some .pulsesEncoding
  else if Config.maxSlots < s.count.toNat then some .countEncoding
  else none

/-- The stepping agent's step once the levels are on the ports: the instruction read, or `IGNORED` where the word is of no
command (30_encoding.md R84). -/
def perform (e : StepInput) (s : State) : Host.Outcome State Fault Refusal :=
  match decode (portWord e) with
  | .ok i => exec i (setInputs e.inputs s)
  | .error _ => .next (ignore (setInputs e.inputs s))

/-- One indivisible step of the block on one step input (R60). -/
def stepOn (e : StepInput) (s : State) : Host.Outcome State Fault Refusal :=
  match refusalOf s with
  | some r => .refused r
  | none => perform e s

/-- The next step input and the state without it: the first of `pending`, or a draw from the environment (log 1, log 2). -/
def nextInput (s : State) : StepInput × State :=
  match s.pending with
  | e :: rest => (e, { s with pending := rest })
  | [] => (Config.drawStep s.draws, { s with draws := s.draws + 1 })

/-- The step input that brings the instruction of a table row with bits `w` (see `decodeTableWord`); the levels that do not
carry it stay as they are (log 10). -/
def inputOfTable (inp : Inputs) (nbits w : Nat) : StepInput :=
  if nbits ≤ 8 then ⟨.decoder, { inp with encA := w.testBit 1, encB := w.testBit 0 }⟩
  else ⟨.hostPort (BitVec.ofNat 32 w), inp⟩

/-- `e` placed as the next step input. -/
def placeInput (e : StepInput) (s : State) : State := { s with pending := e :: s.pending }

end Sys2Proof.Machine
end

