-- ==== Sys2Proof/Machine/Step.lean ====
section
/-!
DEFINITION. Machine/Step.lean: one step of the block on its next step input.
-/

namespace Sys2Proof.Machine

/-- One step (20_memory.md R60, R61): the next step input in the run's order, taken whole (log 12). -/
def step (s : State) : Host.Outcome State Fault Refusal :=
  stepOn (nextInput s).1 (nextInput s).2

/-- The instruction whose table bits are `w` placed as the next step's. -/
def State.withFetchWord (s : State) (nbits w : Nat) : State :=
  placeInput (inputOfTable s.inputs nbits w) s

end Sys2Proof.Machine
end

