-- ==== Sys2Proof/Machine/Protocol.lean ====
section
/-!
DEFINITION. Machine/Protocol.lean: the host's wire commands as sequences of block commands, and the messages the host derives
from the block's answers (44_host_protocol.md). The host is no block hardware (00_scope.md R5): `step` uses nothing of this
file. JSON text, the line assembler and the rate limits are out of scope (R6).
-/

namespace Sys2Proof.Machine

/-- What the host sees of one command: `resp` and `result` (R20). -/
abbrev Answer := Resp × Word

/-- The read-only commands a `status` may expand to (R236: "Any read-only commands"). -/
inductive StatusRead
  | position
  | capacity
  | slot (i : Arg)
  deriving DecidableEq, Repr

/-- The value of a `position` field or of an entry of a `pins` list, as the host reads it: an integer, or a value that is
none (D35: a fraction, a string, ...). JSON text itself is out of scope (00_scope.md R6). -/
inductive FieldValue
  | integer (n : Int)
  | notInteger
  deriving DecidableEq, Repr

/-- The wire commands (R231..R236), and a line the host cannot parse (R230). Which reads a `status` issues is not in the
source, so it is the host's choice here (log 11). -/
inductive WireCommand
  | reset (position : Option FieldValue)
  | ping
  | buttons (pins : List FieldValue)
  | clearButtons
  | test
  | status (reads : List StatusRead)
  | help
  | unparsed
  deriving DecidableEq, Repr

/-- The outbound messages (R231..R240). What the source elides stays open: a `status` carries the answers it was made from,
`help` has no content, the device string is an argument (log 11). -/
inductive OutMessage
  | encoder (delta : Int) (position : Nat)
  | pong (position : Nat)
  | heartbeat (position : Nat) (pinA pinB : Bool)
  | button (pin : Pin) (isPressed : Bool)
  | buttonsConfigured (count : Nat)
  | buttonsCleared
  | testMode (pins : List Pin)
  | status (answers : List Answer)
  | help
  | ready (device encoder : String) (maxButtons pinA pinB : Nat)
  deriving DecidableEq, Repr

/-- A list entry as a pin number; none outside 0..255 (R233: "counted as skipped and issues no command") and none for an
entry that is no integer (D35: "the entry counts as skipped"). -/
def pinOfEntry : FieldValue → Option Pin
  | .integer n => if 0 ≤ n ∧ n ≤ 255 then some (BitVec.ofInt 8 n) else none
  | .notInteger => none

/-- A `position` field as the argument of `RESET_POS`, 0 where the field is absent (R231); none where the value is not an
integer in 0..99 (D35: "no block command and no reply"). -/
def positionOfField : Option FieldValue → Option Arg
  | none => some 0
  | some (.integer n) => if 0 ≤ n ∧ n < Config.posMod then some (BitVec.ofInt 8 n) else none
  | some .notInteger => none

/-- The block command of one read of a `status` (R236). -/
def StatusRead.command : StatusRead → Instr
  | .position => .readPos
  | .capacity => .readStatus
  | .slot i => .readSlot i

/-- The expansion of a wire command into block commands (R231..R236); a line that cannot be parsed issues none (R230). -/
def expand (P : Params) : WireCommand → List Instr
  | .reset position => ((positionOfField position).map Instr.resetPos).toList
  | .ping => [.readPos]
  | .buttons pins => [Instr.cfgClear] ++ (pins.filterMap pinOfEntry).map .cfgAdd ++ [.readStatus]
  | .clearButtons => [.cfgClear]
  | .test => [Instr.cfgClear] ++ P.testPins.map .cfgAdd
  | .status reads => reads.map StatusRead.command
  | .help => []
  | .unparsed => []

/-- `result[6:0]` as a number. -/
def positionOf (w : Word) : Nat := (w.extractLsb' 0 7).toNat

/-- The reply to a wire command from the answers to its expansion, none where the host stays silent (R230..R236). -/
def reply (P : Params) : WireCommand → List Answer → Option OutMessage
  | .reset _, [(.ok, w)] => some (.encoder 0 (positionOf w))
  | .reset _, _ => none
  | .ping, [(_, w)] => some (.pong (positionOf w))
  | .ping, _ => none
  | .buttons _, answers => answers.getLast?.map fun a => .buttonsConfigured (a.2.extractLsb' 0 4).toNat
  | .clearButtons, _ => some .buttonsCleared
  | .test, answers =>
    some (.testMode ((P.testPins.zip answers.tail).filterMap fun x => if x.2.1 = .ok then some x.1 else none))
  | .status _, answers => some (.status answers)
  | .help, _ => some .help
  | .unparsed, _ => none

/-- The clicks a `DRAIN` answered, `sext(result[31:8])` (R237). -/
def drainedClicks (w : Word) : Int := (w.extractLsb' 8 24).toInt

/-- Encoder send from the answer to a `DRAIN` (R237): a message only for nonzero clicks. -/
def encoderMessage (drain : Answer) : Option OutMessage :=
  if drainedClicks drain.2 = 0 then none else some (.encoder (drainedClicks drain.2) (positionOf drain.2))

/-- Button messages from the answer to a `SCAN`, in ascending slot order (R238); `pins` is the host's record of the
bindings. -/
def buttonMessages (pins : Fin 12 → Pin) (scan : Answer) : List OutMessage :=
  (List.finRange 12).filterMap fun (i : Fin 12) =>
    if scan.2.getLsbD i.val then some (.button (pins i) (scan.2.getLsbD (12 + i.val))) else none

/-- The heartbeat from the answers to `READ_POS` and `READ_RAW` (R239). -/
def heartbeatMessage (pos raw : Answer) : OutMessage :=
  .heartbeat (positionOf pos.2) (raw.2.getLsbD 1) (raw.2.getLsbD 0)

/-- The ready message from the answer to `READ_STATUS` (R240). -/
def readyMessage (device : String) (status : Answer) : OutMessage :=
  .ready device "100PPR" (status.2.extractLsb' 8 8).toNat Config.encPinA.toNat Config.encPinB.toNat

/-- The block commands of one iteration of the host's main loop (R241): drain, heartbeat when due, scan, then the wire
commands received. -/
def mainLoop (P : Params) (heartbeatDue : Bool) (received : List WireCommand) : List Instr :=
  [Instr.drain] ++ (if heartbeatDue then [Instr.readPos, Instr.readRaw] else []) ++ [Instr.scan] ++
    received.flatMap (expand P)

end Sys2Proof.Machine
end

