-- ==== Sys2Proof/Safety.lean ====
section
/-!
DEFINITION. Safety.lean: the terms that claims about QDB use: runs on given step inputs (70_reset_and_hazards.md R294), what
is observed of them, the invariant of reachable states, and the sums and sample lists the laws of spec/ speak of.
-/

namespace Sys2Proof.Machine

/-! ## Runs -/

/-- The run of the block on these step inputs, in this order (R294, R61), up to the first stop. -/
def runOn : List StepInput → State → Host.Outcome State Fault Refusal
  | [], s => .next s
  | e :: es, s =>
    match stepOn e s with
    | .next t => runOn es t
    | .fault f => .fault f
    | .refused r => .refused r

/-- The sum of `f e s t` over the steps `s → t` of the run on these inputs. -/
def sumRun (f : StepInput → State → State → Int) : List StepInput → State → Int
  | [], _ => 0
  | e :: es, s =>
    match stepOn e s with
    | .next t => f e s t + sumRun f es t
    | .fault _ => 0
    | .refused _ => 0

/-- The `(resp, result)` pairs of the run's command steps that `keep` admits (R294). -/
def answersOf (keep : StepInput → Bool) : List StepInput → State → List Answer
  | [], _ => []
  | e :: es, s =>
    match stepOn e s with
    | .next t => if keep e then (t.resp, t.result) :: answersOf keep es t else answersOf keep es t
    | .fault _ => []
    | .refused _ => []

/-- A step of the host port. -/
def isCommand (e : StepInput) : Bool := e.agent != .decoder

/-- The instruction a step input brings, none for an ignored word. -/
def instrOf (e : StepInput) : Option Instr := (decode (portWord e)).toOption

/-- The command words of a run, in order, whatever decoder steps fall between them (R61). -/
def commandsOf (es : List StepInput) : List PortWord := (es.filter isCommand).map portWord

/-- The answers to all commands of a run (R294). -/
def answers (es : List StepInput) (s : State) : List Answer := answersOf isCommand es s

/-- Decoder steps on these samples (a, b), the other levels as in `inp`. -/
def edges (inp : Inputs) (samples : List (Bool × Bool)) : List StepInput :=
  samples.map fun x => ⟨.decoder, { inp with encA := x.1, encB := x.2 }⟩

/-- The command step of an instruction of the host port. -/
def commandInput (inp : Inputs) (i : Instr) : StepInput :=
  match encode i with
  | .command w => ⟨.hostPort w, inp⟩
  | .event c => ⟨.decoder, { inp with encA := c.getLsbD 1, encB := c.getLsbD 0 }⟩

/-! ## The invariant of reachable states -/

/-- `position` in 0..99, `pulses` in -3..3, `count` in 0..12 (10_state.md R24, R26, R28). -/
structure RegistersInRange (s : State) : Prop where
  position : s.position.toNat < 100
  pulses   : s.pulses.toInt ≠ -4
  count    : s.count.toNat ≤ 12

/-- The slot invariant, word for word R30. -/
def SlotPrefix (s : State) : Prop :=
  ∀ i : Fin 12,
    (i.val < s.count.toNat ↔ s.slots[i].enabled = true) ∧
    (s.slots[i].enabled = true ↔ s.slots[i].pin ≠ Config.pinNone) ∧
    (s.count.toNat ≤ i.val → s.slots[i] = Slot.unconfigured)

/-- Every configured slot is bound to a pin in range that is not reserved (43_slot_config.md R201, R203, R205). -/
def PinsAccepted (s : State) : Prop :=
  ∀ i : Fin 12, s.slots[i].enabled = true → acceptedPin s.params s.slots[i].pin = true

/-- What holds in every reachable state: a legal instantiation, registers in range, the slot invariant, bound pins
accepted. -/
structure Inv (s : State) : Prop where
  legal  : s.params.legal = true
  range  : RegistersInRange s
  slots  : SlotPrefix s
  pins   : PinsAccepted s

/-! ## Clicks (40_qdec_fsm.md R121, 41_encoder_access.md R144) -/

/-- The normalisation of one decoder step: +1, -1 or none; 0 for a command. -/
def clicksMade (e : StepInput) (s _t : State) : Int :=
  match e.agent with
  | .decoder => clickOf (movedPulses s.params.invert s.prev s.pulses (encoderCode e.inputs.encA e.inputs.encB))
  | .hostPort _ => 0

/-- The accumulator move `m_k` of one decoder step; 0 for a command. -/
def pulsesMade (e : StepInput) (s _t : State) : Int :=
  match e.agent with
  | .decoder => pulseMove s.params.invert s.prev (encoderCode e.inputs.encA e.inputs.encB)
  | .hostPort _ => 0

/-- The `c` that a `DRAIN` returned; 0 for any other step. -/
def clicksReturned (e : StepInput) (_s t : State) : Int :=
  match instrOf e with
  | some .drain => drainedClicks t.result
  | _ => 0

/-- The `clicks` value that a `RESET_POS` discarded; 0 for any other step. -/
def clicksDiscarded (e : StepInput) (s t : State) : Int :=
  match instrOf e with
  | some (.resetPos _) => if t.resp = .ok then s.clicks.toInt else 0
  | _ => 0

/-- The size of the normalisation of a step: 1 where one happens. -/
def clicksCounted (e : StepInput) (s t : State) : Int := |clicksMade e s t|

/-- The accumulator moves of decoder steps on these samples, the last code before them being `prev`. -/
def movesOf (invert : Bool) : Code → List (Bool × Bool) → List Int
  | _, [] => []
  | prev, (a, b) :: xs => pulseMove invert prev (encoderCode a b) :: movesOf invert (encoderCode a b) xs

/-- The code of the last decoder sample of a run, `c` where there is none (10_state.md R25). -/
def lastCode : Code → List StepInput → Code
  | c, [] => c
  | c, e :: es =>
    match e.agent with
    | .decoder => lastCode (encoderCode e.inputs.encA e.inputs.encB) es
    | .hostPort _ => lastCode c es

/-! ## Lanes over many scans (42_debounce_scan.md R176..R180) -/

/-- A slot after scans at these times with these readings (1 = pressed). -/
def laneRun : List (Millis × Bool) → Slot → Slot
  | [], sl => sl
  | (t, r) :: xs, sl => laneRun xs (laneSlot t r sl)

/-- The slot's edge bit at each of these scans. -/
def laneEdges : List (Millis × Bool) → Slot → List Bool
  | [], _ => []
  | (t, r) :: xs, sl => laneEdge t r sl :: laneEdges xs (laneSlot t r sl)

/-- The states a slot's edges report, in order: `pressed` is true (R173, R176). -/
def laneReports : List (Millis × Bool) → Slot → List Bool
  | [], _ => []
  | (t, r) :: xs, sl =>
    if laneEdge t r sl then (laneSlot t r sl).stable :: laneReports xs (laneSlot t r sl)
    else laneReports xs (laneSlot t r sl)

/-- `n` values in turn, `b` first. -/
def alternating : Nat → Bool → List Bool
  | 0, _ => []
  | n + 1, b => b :: alternating n (!b)

/-- The `SCAN` steps of a run. -/
def isScan (e : StepInput) : Bool := instrOf e == some .scan

/-- The time and the reading of pin `p` at each scan of a run. -/
def scanSamples (p : Pin) (es : List StepInput) : List (Millis × Bool) :=
  (es.filter isScan).map fun e => (e.inputs.now, pressed (sampleBtn e.inputs p))

/-- A true time in ms as `now` shows it (10_state.md R21(c)). -/
def stamp (t : Nat) : Millis := BitVec.ofNat 32 t

/-- Scans at true times with readings, as the block sees them. -/
def stamped (xs : List (Nat × Bool)) : List (Millis × Bool) := xs.map fun x => (stamp x.1, x.2)

/-- Scans at nondecreasing true times from `tc` on, none of them 50 ms or more after the last change of the reading, when
the reading was `r` since `tc`; answers the reading and the time of the last change at the end (R178: each gap below 50). -/
def flickers : Bool → Nat → List (Nat × Bool) → Option (Bool × Nat)
  | r, tc, [] => some (r, tc)
  | r, tc, (t, x) :: xs =>
    if tc ≤ t ∧ t < tc + 50 then (if x = r then flickers r tc xs else flickers x t xs) else none

/-- Scans at these nondecreasing true times, each less than 2^31 ms after the one before it, the first after `t` (10_state.md
R21(c): the condition under which `now` shows the elapsed time). -/
def scansFrom : Nat → List Nat → Bool
  | _, [] => true
  | t, u :: us => decide (t ≤ u ∧ u < t + 2 ^ 31) && scansFrom u us

/-- The first element that satisfies `p` is marked, no other. -/
def markFirst {α : Type} (p : α → Bool) : List α → List Bool
  | [] => []
  | x :: xs => if p x then true :: xs.map (fun _ => false) else false :: markFirst p xs

end Sys2Proof.Machine
end

