-- ==== Sys2Proof/Certificates/Slice0/Obligations.lean ====
section
/-!
DEFINITION. Certificates/Slice0/Obligations.lean: the statements about QDB, taken from the numbered rules of spec/.
-/

open Sys2Proof Sys2Proof.Machine

/-! ## Encoding -/

/-- 30_encoding.md R80, R81, R83, R88: the decoder and the encoder agree in both directions, for every operand, command or
event: no bit of an encoding is dropped and no instruction has two encodings. -/
def Obligations.DecodeAndEncodeAgree : Prop :=
  (∀ i : Instr, decode (encode i) = .ok i) ∧ (∀ (x : PortWord) (i : Instr), decode x = .ok i → encode i = x)

/-- R85: a word is of exactly one row of the opcode table, the one it decodes to, or of none and answered `IGNORED`; rows
differ in `OP` and each mask covers bits 31:8. -/
def Obligations.EveryWordHasOneRowOrIsIgnored : Prop :=
  (∀ w : Word,
    (∃ i, decode (.command w) = .ok i ∧ rowsOf w = [i.mnemonic]) ∨
    (rowsOf w = [] ∧ ∀ (inp : Inputs) (s : State),
      perform ⟨.hostPort w, inp⟩ s = .next { s with inputs := inp, resp := .ignored, result := 0 })) ∧
  opcodeTable.Pairwise (fun r q => r.pattern.extractLsb' 28 4 ≠ q.pattern.extractLsb' 28 4) ∧
  (∀ r ∈ opcodeTable, r.mask &&& 0xFFFFFF00 = 0xFFFFFF00)

/-- R84: the decoding of a command word in the rule's own order, and what the block does in each case. -/
def Obligations.CommandWordsDecodeInOrder : Prop :=
  ∀ (w : Word) (inp : Inputs) (s : State),
    let op := (w.extractLsb' 28 4).toNat
    let mbz := w.extractLsb' 8 20
    let arg := w.extractLsb' 0 8
    let ignored := { s with inputs := inp, resp := Resp.ignored, result := 0 }
    if 0xC ≤ op then perform ⟨.hostPort w, inp⟩ s = .next ignored
    else if mbz ≠ 0 then perform ⟨.hostPort w, inp⟩ s = .next ignored
    else if op ∈ [0x0, 0x1, 0x2, 0x4, 0x5, 0x6, 0x8, 0xB] ∧ arg ≠ 0 then perform ⟨.hostPort w, inp⟩ s = .next ignored
    else ∃ i, commandOf (w.extractLsb' 28 4) arg = some i ∧
      perform ⟨.hostPort w, inp⟩ s = exec i { s with inputs := inp }

/-- 30_encoding.md R83, R88 and 95_test_vectors.md: words written out from the encoding, and the event of R81. -/
def Obligations.WrittenOutWordsDecode : Prop :=
  decode (.command 0b00000000000000000000000000000000) = .ok .nop ∧
  decode (.command 0b00110000000000000000000000110010) = .ok (.resetPos 50) ∧
  decode (.command 0b01110000000000000000000001100100) = .ok (.cfgAdd 100) ∧
  decode (.command 0b10000000000000000000000000000000) = .ok .scan ∧
  decode (.command 0b10100000000000000000000000001011) = .ok (.readSlotTs 11) ∧
  decode (.event 0b10) = .ok (.qdecEdge true false)

/-! ## Steps and runs -/

/-- The step runs the instruction its step input brings. The next step input is the first of `pending`, else a draw (the
model's form of 10_state.md R23 and R21, log 1 and log 2). In a state the model gives steps, the step is `exec` of the
decoded instruction with the input's levels on the ports, or the answer `IGNORED` (R84); in any other it is that refusal. -/
def Obligations.StepRunsTheDecodedInstruction : Prop :=
  ∀ (s : State) (e : StepInput) (rest : State),
    ((∃ es, s.pending = e :: es ∧ rest = { s with pending := es }) ∨
      (s.pending = [] ∧ e = Config.drawStep s.draws ∧ rest = { s with draws := s.draws + 1 })) →
    (∀ r, refusalOf s = some r → step s = .refused r) ∧
    (refusalOf s = none →
      (∀ i, decode (portWord e) = .ok i → step s = exec i { rest with inputs := e.inputs }) ∧
      (∀ err, decode (portWord e) = .error err →
        step s = .next { rest with inputs := e.inputs, resp := .ignored, result := 0 }))

/-- 00_scope.md R8 ("It must refuse any instantiation that breaks the stated constraint", with D21 for the test pins): an
instantiation outside the constraints is refused, one inside is not. The clause `ledPins.Nodup` is the model's: that no LED
pin is listed twice is inferred from R8's "a finite set" (log 5, DEDUCED). -/
def Obligations.OnlyLegalInstantiationsRun : Prop :=
  ∀ s : State,
    step s = .refused .illegalInstantiation ↔
      ¬ (s.params.pinMin ≤ 2 ∧ 3 ≤ s.params.pinMax ∧ s.params.pinMax ≤ 99 ∧
        (s.params.ledPins.length = 1 ∨ s.params.ledPins.length = 3) ∧ s.params.ledPins.Nodup ∧
        (2 : Pin) ∉ s.params.ledPins ∧ (3 : Pin) ∉ s.params.ledPins ∧ s.params.testPins.length = 6 ∧
        ∀ p ∈ s.params.testPins, s.params.pinMin ≤ p.toNat ∧ p.toNat ≤ s.params.pinMax ∧ p ≠ 0 ∧ p ≠ 1 ∧
          p ∉ s.params.ledPins)

/-- 20_memory.md R61, R62, 70_reset_and_hazards.md R294: a run is one total order of steps of either agent. That the inputs to
come stand in `pending`, are taken first to last and leave what was placed behind them is the model's own device (log 1,
DESIGN CHOICE): the machine run for as many steps as inputs are placed is the run on these inputs. -/
def Obligations.PlacedInputsRunInOrder : Prop :=
  ∀ (es : List StepInput) (s : State),
    Sys2Proof.core.run es.length { s with pending := es ++ s.pending } = runOn es s

/-- 60_exceptions.md R260, 70_reset_and_hazards.md R294: from every state that meets the invariant the block runs for any
number of steps, whatever its inputs are, without a fault or a refusal. -/
def Obligations.TheBlockNeverStops : Prop :=
  ∀ (s : State), Inv s → ∀ k : Nat, ∃ t, Sys2Proof.core.run k s = .next t ∧ Inv t

/-- 10_state.md R26, R28, R30, 43_slot_config.md R203: every step keeps the invariant. -/
def Obligations.EveryStepKeepsTheInvariant : Prop :=
  ∀ s t : State, Inv s → step s = .next t → Inv t

/-- 70_reset_and_hazards.md R290: the invariant holds when reset is released, for every legal instantiation and all input
levels; `State.reset` is one such state (its instantiation is the model's choice, log 4). -/
def Obligations.InvariantHoldsAtReset : Prop :=
  (∀ (P : Params) (inp : Inputs), P.legal = true → Inv (State.atRelease P inp)) ∧ Inv State.reset

/-- 10_state.md R24, 70_reset_and_hazards.md R290: the value of every register at reset release. The model's own fields are
not spoken of; that `State.reset` releases at `Config.resetInputs` for `Config.exampleParams` is the model's choice (log 3,
log 4). -/
def Obligations.RegistersAtReset : Prop :=
  (∀ (P : Params) (inp : Inputs),
    let s := State.atRelease P inp
    s.pulses = 0 ∧ s.clicks = 0 ∧ s.position = 0 ∧ s.count = 0 ∧ s.resp = .ok ∧ s.result = 0 ∧
    (∀ i : Fin 12, s.slots[i].pin = 0xFF ∧ s.slots[i].enabled = false ∧ s.slots[i].stable = false ∧
      s.slots[i].raw = false ∧ s.slots[i].ts = 0) ∧
    s.prev = encoderCode inp.encA inp.encB) ∧
  ∃ (P : Params) (inp : Inputs), State.reset = State.atRelease P inp

/-- 70_reset_and_hazards.md R291: `prev` is the code of the sample at release; a step at the resting code changes nothing,
and a first step elsewhere is measured from the resting code. -/
def Obligations.ResetReleaseSamplesTheEncoder : Prop :=
  ∀ (P : Params) (inp : Inputs) (a b : Bool),
    let s := State.atRelease P inp
    s.prev = BitVec.ofBool inp.encA ++ BitVec.ofBool inp.encB ∧
    exec (.qdecEdge inp.encA inp.encB) s = .next s ∧
    ∃ t, exec (.qdecEdge a b) s = .next t ∧
      t.pulses.toInt = pulseMove P.invert (encoderCode inp.encA inp.encB) (encoderCode a b)

/-! ## The decoder -/

/-- 40_qdec_fsm.md R110 with R111 to R117: the decoder step, case by case as the rule's pseudocode has it. Nothing else of
the state changes: `resp`, `result`, the slots and `count` stay. -/
def Obligations.DecoderStepResult : Prop :=
  ∀ (a b : Bool) (s : State),
    decode (.event (BitVec.ofBool a ++ BitVec.ofBool b)) = .ok (.qdecEdge a b) ∧
    let cur : Code := BitVec.ofBool a ++ BitVec.ofBool b
    let idx : BitVec 4 := s.prev ++ cur
    let d : Int := ([0, -1, 1, 0, 1, 0, 0, -1, -1, 0, 0, 1, 0, 1, -1, 0] : List Int).getD idx.toNat 0
    let p1 : Int := if s.params.invert then s.pulses.toInt - d else s.pulses.toInt + d
    exec (.qdecEdge a b) s = .next (
      if p1 = 4 then
        { s with prev := cur, pulses := 0, position := BitVec.ofNat 7 ((s.position.toNat + 1) % 100),
                 clicks := s.clicks + 1 }
      else if p1 = -4 then
        { s with prev := cur, pulses := 0, position := BitVec.ofNat 7 ((s.position.toNat + 99) % 100),
                 clicks := s.clicks - 1 }
      else { s with prev := cur, pulses := BitVec.ofInt 3 p1 })

/-- R118: the accumulator stays in -3..3 over a step, and is there in every state that a run from reset release reaches. -/
def Obligations.AccumulatorStaysBelowFour : Prop :=
  (∀ (a b : Bool) (s : State), -3 ≤ s.pulses.toInt ∧ s.pulses.toInt ≤ 3 →
    ∃ t, exec (.qdecEdge a b) s = .next t ∧ -3 ≤ t.pulses.toInt ∧ t.pulses.toInt ≤ 3) ∧
  ∀ (P : Params) (inp : Inputs) (es : List StepInput) (t : State), runOn es (State.atRelease P inp) = .next t →
    -3 ≤ t.pulses.toInt ∧ t.pulses.toInt ≤ 3

/-- R119: a step whose sample equals `prev` changes no register; so such steps may be added anywhere in a run: what is
answered stays the same, and so does the state after any step that follows. -/
def Obligations.IdleStepChangesNothing : Prop :=
  (∀ (a b : Bool) (s : State), -3 ≤ s.pulses.toInt → encoderCode a b = s.prev → exec (.qdecEdge a b) s = .next s) ∧
  ∀ (s t : State) (inp : Inputs) (es gs : List StepInput) (f : StepInput), runOn es s = .next t → refusalOf t = none →
    encoderCode inp.encA inp.encB = t.prev →
    answers (es ++ ⟨.decoder, inp⟩ :: f :: gs) s = answers (es ++ f :: gs) s ∧
    runOn (es ++ ⟨.decoder, inp⟩ :: f :: gs) s = runOn (es ++ f :: gs) s

/-- R120: a sample that differs from `prev` in both bits changes only `prev`; the next step is judged from it. -/
def Obligations.InvalidStepChangesOnlyPrev : Prop :=
  ∀ (a b : Bool) (s : State), -3 ≤ s.pulses.toInt → encoderCode a b = ~~~s.prev →
    exec (.qdecEdge a b) s = .next { s with prev := encoderCode a b }

/-- R121, the replay law: over any decoder steps, `4·n + pulses_end - pulses_start` is the sum of the moves, the position is
advanced by the net clicks modulo 100 and `clicks` by them modulo 2^24. -/
def Obligations.ReplayLaw : Prop :=
  ∀ (es : List StepInput) (s : State), refusalOf s = none → (∀ e ∈ es, e.agent = .decoder) →
    ∃ t, runOn es s = .next t ∧
      4 * sumRun clicksMade es s + t.pulses.toInt - s.pulses.toInt = sumRun pulsesMade es s ∧
      (t.position.toNat : Int) = ((s.position.toNat : Int) + sumRun clicksMade es s) % 100 ∧
      t.clicks = BitVec.ofInt 24 (s.clicks.toInt + sumRun clicksMade es s)

/-- R122, the direction law, for both polarities: the channel-B-leading cycle adds +1 a step with `INVERT` = 1 and advances
the position at its fourth step, the channel-A-leading cycle retreats it; `INVERT` = 0 swaps the two. -/
def Obligations.DirectionLaw : Prop :=
  ∀ (s : State) (inp : Inputs) (bLeads : Bool), refusalOf s = none → s.prev = 0 → s.pulses = 0 →
    let cycle : List (Bool × Bool) :=
      if bLeads then [(false, true), (true, true), (true, false), (false, false)]
      else [(true, false), (true, true), (false, true), (false, false)]
    let dir : Int := if bLeads = s.params.invert then 1 else -1
    (∀ k < 4, ∃ t, runOn (edges inp (cycle.take k)) s = .next t ∧ t.pulses.toInt = dir * k ∧
      t.position = s.position ∧ t.clicks = s.clicks) ∧
    ∃ t, runOn (edges inp cycle) s = .next t ∧ t.prev = 0 ∧ t.pulses = 0 ∧
      (t.position.toNat : Int) = ((s.position.toNat : Int) + dir) % 100 ∧
      t.clicks = s.clicks + BitVec.ofInt 24 dir

/-- R123, the four-pulse law: four steps that all move the accumulator by `dir` make exactly one click, of that sign, from a
phase of no opposite sign, and none from a phase of the opposite sign; eight make one or two. -/
def Obligations.FourPulseLaw : Prop :=
  ∀ (s : State) (inp : Inputs) (samples : List (Bool × Bool)) (dir : Int), refusalOf s = none → dir = 1 ∨ dir = -1 →
    (movesOf s.params.invert s.prev samples = List.replicate 4 dir →
      (0 ≤ dir * s.pulses.toInt → sumRun clicksMade (edges inp samples) s = dir ∧
        sumRun clicksCounted (edges inp samples) s = 1) ∧
      (dir * s.pulses.toInt < 0 → sumRun clicksCounted (edges inp samples) s = 0)) ∧
    (movesOf s.params.invert s.prev samples = List.replicate 8 dir →
      sumRun clicksCounted (edges inp samples) s = 1 ∨ sumRun clicksCounted (edges inp samples) s = 2)

/-- 10_state.md R25: after any run `prev` is the code of the last decoder sample, whatever commands fell in between; no
command writes it. -/
def Obligations.PrevIsTheLastDecoderSample : Prop :=
  ∀ (es : List StepInput) (s t : State), runOn es s = .next t → t.prev = lastCode s.prev es

/-! ## Encoder state access -/

/-- 41_encoder_access.md R141: `READ_POS`. Only `resp` and `result` change; the value is below 100 where the position is in
its range (R28). -/
def Obligations.ReadPosAnswersThePosition : Prop :=
  decode (.command 0x10000000) = .ok .readPos ∧
  ∀ s : State, ∃ t, exec .readPos s = .next t ∧
    t = { s with resp := .ok, result := s.position.setWidth 32 } ∧
    (s.position.toNat < 100 → t.result.toNat < 100)

/-- R143: `DRAIN` answers the clicks and the position of one instant and clears the clicks; `pulses` and `position` stay; a
second one answers no clicks. -/
def Obligations.DrainTakesAndClearsTheClicks : Prop :=
  decode (.command 0x20000000) = .ok .drain ∧
  ∀ s : State, ∃ t, exec .drain s = .next t ∧
    t = { s with clicks := 0, resp := .ok, result := s.clicks ++ (0 : BitVec 1) ++ s.position } ∧
    exec .drain t = .next { t with result := s.position.setWidth 32 }

/-- R146, R147: `RESET_POS p` writes the position and zeroes both accumulators in one step, or is ignored from 100 on; `prev`
stays in both cases. -/
def Obligations.ResetPosWritesOrIgnores : Prop :=
  ∀ (p : Arg) (s : State),
    decode (.command (0x30000000 ||| p.setWidth 32)) = .ok (.resetPos p) ∧
    exec (.resetPos p) s = .next (
      if 100 ≤ p.toNat then { s with resp := .ignored, result := 0 }
      else { s with position := p.setWidth 7, pulses := 0, clicks := 0, resp := .ok, result := p.setWidth 32 })

/-- R145: `READ_RAW` answers the levels on the encoder inputs; it is no decoder step. -/
def Obligations.ReadRawAnswersTheLevels : Prop :=
  decode (.command 0x40000000) = .ok .readRaw ∧
  ∀ s : State, exec .readRaw s =
    .next { s with resp := .ok,
                   result := (BitVec.ofBool s.inputs.encA ++ BitVec.ofBool s.inputs.encB : BitVec 2).setWidth 32 }

/-- R149: `READ_QDEC` answers the hidden decoder state; bits 6:4 never read -4 where the accumulator is stored as R118
says. -/
def Obligations.ReadQdecAnswersTheHiddenState : Prop :=
  decode (.command 0x50000000) = .ok .readQdec ∧
  ∀ s : State, ∃ t, exec .readQdec s = .next t ∧
    t = { s with resp := .ok, result := (s.pulses ++ (0 : BitVec 2) ++ s.prev : BitVec 7).setWidth 32 } ∧
    (-3 ≤ s.pulses.toInt → t.result.extractLsb' 4 3 ≠ 0b100)

/-- R144, the conservation law: over any run, of decoder steps and commands in any order, no click is lost or counted
twice. -/
def Obligations.ClicksAreConserved : Prop :=
  ∀ (es : List StepInput) (s t : State), runOn es s = .next t →
    t.clicks = BitVec.ofInt 24
      (s.clicks.toInt + sumRun clicksMade es s - sumRun clicksReturned es s - sumRun clicksDiscarded es s)

/-- R148: after `RESET_POS p`, decoder steps with fewer than four moves of either sign (or none that reaches ±4) leave
`READ_POS` answering `p`. -/
def Obligations.ResetThenReadAnswersTheSetPosition : Prop :=
  ∀ (s : State) (p : Arg) (inp : Inputs) (samples : List (Bool × Bool)), refusalOf s = none → p.toNat < 100 →
    (∀ t, stepOn (commandInput inp (.resetPos p)) s = .next t →
        sumRun clicksCounted (edges inp samples) t = 0) ∨
      ((movesOf s.params.invert s.prev samples).count 1 < 4 ∧
        (movesOf s.params.invert s.prev samples).count (-1) < 4) →
    answers ([commandInput inp (.resetPos p)] ++ edges inp samples ++ [commandInput inp .readPos]) s =
      [(.ok, p.setWidth 32), (.ok, p.setWidth 32)]

/-- R140: none of the encoder commands reads `btn_in`, `now` or the slot array, and none writes them: from two states that
differ in nothing else they answer the same, and the slots stay. -/
def Obligations.EncoderCommandsKeepOutOfTheSlots : Prop :=
  ∀ (i : Instr) (s u : State),
    i ∈ [Instr.readPos, .drain, .readRaw, .readQdec] ∨ (∃ p, i = .resetPos p) →
    u.prev = s.prev → u.pulses = s.pulses → u.clicks = s.clicks → u.position = s.position →
    u.inputs.encA = s.inputs.encA → u.inputs.encB = s.inputs.encB →
    ∃ t v, exec i s = .next t ∧ exec i u = .next v ∧ t.resp = v.resp ∧ t.result = v.result ∧ t.prev = v.prev ∧
      t.pulses = v.pulses ∧ t.clicks = v.clicks ∧ t.position = v.position ∧
      t.slots = s.slots ∧ t.count = s.count ∧ t.inputs = s.inputs ∧
      v.slots = u.slots ∧ v.count = u.count ∧ v.inputs = u.inputs

/-- 20_memory.md R66: the commands that only read change nothing but `resp` and `result`, and are idempotent. -/
def Obligations.ReadingCommandsChangeNoState : Prop :=
  ∀ (i : Instr) (s : State),
    i ∈ [Instr.readPos, .readRaw, .readQdec, .readStatus, .nop] ∨ (∃ k, i = .readSlot k ∨ i = .readSlotTs k) →
    ∃ c w, exec i s = .next { s with resp := c, result := w } ∧
      exec i { s with resp := c, result := w } = .next { s with resp := c, result := w }

/-! ## The debounce array -/

/-- 42_debounce_scan.md R174 with R171 to R173: `SCAN`, slot by slot as the rule's pseudocode has it; the answer holds the
stable bits after the scan and its edge bits; nothing else changes. -/
def Obligations.ScanRunsEveryEnabledLane : Prop :=
  decode (.command 0x80000000) = .ok .scan ∧
  ∀ s : State, ∃ t, exec .scan s = .next t ∧
    t = { s with slots := t.slots, resp := .ok, result := t.result } ∧
    t.result.extractLsb' 24 8 = 0 ∧
    ∀ i : Fin 12,
      let now := s.inputs.now
      let r : Bool := !s.inputs.btnIn.getLsbD s.slots[i].pin.toNat
      let armed : Slot := if r = s.slots[i].raw then s.slots[i] else { s.slots[i] with raw := r, ts := now }
      let edge : Prop := s.slots[i].enabled = true ∧ 50 ≤ (now - armed.ts).toNat ∧ armed.raw ≠ armed.stable
      (s.slots[i].enabled = false → t.slots[i] = s.slots[i]) ∧
      (s.slots[i].enabled = true → edge → t.slots[i] = { armed with stable := armed.raw }) ∧
      (s.slots[i].enabled = true → ¬ edge → t.slots[i] = armed) ∧
      (t.result.getLsbD i.val = true ↔ edge) ∧
      t.result.getLsbD (12 + i.val) = t.slots[i].stable

/-- 42_debounce_scan.md R174, corner case (i): while nothing is configured `SCAN` answers 0 and has no other effect. -/
def Obligations.ScanOfAnEmptyArrayHasNoEffect : Prop :=
  ∀ s : State, SlotPrefix s → s.count = 0 → exec .scan s = .next { s with resp := .ok, result := 0 }

/-- R175: a slot's new `raw`, `ts`, `stable` and edge bit depend only on its own `raw`, `ts` and `stable`, the level of its
own pin and the time, masked by `enabled`: two lanes that agree in these, of one state or of two, move alike. -/
def Obligations.LanesAreIndependent : Prop :=
  ∀ (s u t v : State) (i j : Fin 12), exec .scan s = .next t → exec .scan u = .next v →
    s.slots[i].enabled = u.slots[j].enabled → s.slots[i].raw = u.slots[j].raw → s.slots[i].ts = u.slots[j].ts →
    s.slots[i].stable = u.slots[j].stable → s.inputs.now = u.inputs.now →
    s.inputs.btnIn.getLsbD s.slots[i].pin.toNat = u.inputs.btnIn.getLsbD u.slots[j].pin.toNat →
    t.slots[i].raw = v.slots[j].raw ∧ t.slots[i].ts = v.slots[j].ts ∧ t.slots[i].stable = v.slots[j].stable ∧
    t.result.getLsbD i.val = v.result.getLsbD j.val

/-- R177: an edge at a scan exactly when the sample equals `raw`, the last change is 50 ms or more ago and `raw` differs
from `stable`. -/
def Obligations.EdgeCondition : Prop :=
  ∀ (s t : State) (i : Fin 12), exec .scan s = .next t → s.slots[i].enabled = true →
    (t.result.getLsbD i.val = true ↔
      (!s.inputs.btnIn.getLsbD s.slots[i].pin.toNat) = s.slots[i].raw ∧
      50 ≤ (s.inputs.now - s.slots[i].ts).toNat ∧ s.slots[i].raw ≠ s.slots[i].stable)

/-- R176: over any scans, a slot's edges report states in turn, the first the opposite of its stable state. -/
def Obligations.EdgesAlternate : Prop :=
  ∀ (xs : List (Millis × Bool)) (sl : Slot),
    laneReports xs sl = alternating ((laneEdges xs sl).count true) (!sl.stable)

/-- 10_state.md R31 (and 90_conflicts.md C5): where `raw = stable`, `ts` affects no edge, raw reading, stable state or view of
the slot at any later scan. `READ_SLOT_TS` is left out: it answers `ts` itself (R207). -/
def Obligations.TimestampOfAStableSlotIsIrrelevant : Prop :=
  ∀ (xs : List (Millis × Bool)) (sl : Slot) (ts : Millis), laneView sl = .stable sl.stable →
    laneEdges xs { sl with ts := ts } = laneEdges xs sl ∧
    (laneRun xs { sl with ts := ts }).raw = (laneRun xs sl).raw ∧
    (laneRun xs { sl with ts := ts }).stable = (laneRun xs sl).stable ∧
    laneView (laneRun xs { sl with ts := ts }) = laneView (laneRun xs sl)

/-- R178, the flicker law: a slot at rest in `s0`; its reading changes at true time `t1`, then at gaps below 50 ms up to `tk`,
and stays at `sf` at every later scan, one scan less than 2^31 ms after another (10_state.md R21(c)). There is no edge while
it flickers; then, if `sf` differs from `s0`, exactly one, at the first scan 50 ms or more after `tk`, and if not, none. -/
def Obligations.FlickerLaw : Prop :=
  ∀ (sl : Slot) (t1 tk : Nat) (xs ys : List (Nat × Bool)) (sf : Bool), sl.raw = sl.stable →
    flickers (!sl.stable) t1 xs = some (sf, tk) →
    (∀ y ∈ ys, y.2 = sf) → scansFrom tk (ys.map (·.1)) = true →
    laneEdges (stamped ((t1, !sl.stable) :: xs ++ ys)) sl =
      List.replicate (xs.length + 1) false ++
        (if sf = sl.stable then ys.map (fun _ => false) else markFirst (fun y => decide (tk + 50 ≤ y.1)) ys) ∧
    (laneRun (stamped ((t1, !sl.stable) :: xs ++ ys)) sl).stable =
      (if ys.any (fun y => decide (tk + 50 ≤ y.1)) then sf else sl.stable)

/-- R180: a slot whose reading keeps changing, so that no scan comes 50 ms or more after the last change, never makes an
edge. -/
def Obligations.ContinuousBouncePostponesForever : Prop :=
  ∀ (sl : Slot) (tc : Nat) (xs : List (Nat × Bool)), sl.ts = stamp tc → (flickers sl.raw tc xs).isSome = true →
    laneEdges (stamped xs) sl = List.replicate xs.length false

/-- 70_reset_and_hazards.md R296: a scan `2^32 + k` ms after the last change, `k < 50`, is taken as `k` ms and makes no edge;
below 2^32 ms the elapsed time is the true one. -/
def Obligations.ElapsedTimeWraps : Prop :=
  ∀ (sl : Slot) (tc : Nat), sl.ts = stamp tc →
    (∀ k < 50, laneEdge (stamp (tc + 2 ^ 32 + k)) sl.raw sl = false ∧
      laneSlot (stamp (tc + 2 ^ 32 + k)) sl.raw sl = sl) ∧
    (∀ d < 2 ^ 32, laneEdge (stamp (tc + d)) sl.raw sl = true ↔ 50 ≤ d ∧ sl.raw ≠ sl.stable)

/-- R174, R175, R181: a run of the block refines the lanes. Over any run without `CFG_CLEAR`, whatever else is in it, a
configured slot moves as its lane does on the samples of its own pin at the scans, and the edge bits answered are the
lane's. -/
def Obligations.RunsRefineTheLanes : Prop :=
  ∀ (es : List StepInput) (s t : State) (i : Fin 12), Inv s → runOn es s = .next t → i.val < s.count.toNat →
    (∀ e ∈ es, instrOf e ≠ some .cfgClear) →
    t.slots[i] = laneRun (scanSamples s.slots[i].pin es) s.slots[i] ∧
    (answersOf isScan es s).map (fun a => a.2.getLsbD i.val) =
      laneEdges (scanSamples s.slots[i].pin es) s.slots[i]

/-! ## Slot configuration -/

/-- 43_slot_config.md R209: `NOP`; with any other bit set the word is ignored. -/
def Obligations.NopOnlyAnswers : Prop :=
  decode (.command 0x00000000) = .ok .nop ∧
  (∀ s : State, exec .nop s = .next { s with resp := .ok, result := 0 }) ∧
  ∀ (w : Word) (inp : Inputs) (s : State), w.extractLsb' 28 4 = 0 → w ≠ 0 →
    perform ⟨.hostPort w, inp⟩ s = .next { s with inputs := inp, resp := .ignored, result := 0 }

/-- R200: `CFG_CLEAR` unconfigures every slot and sets `count` to 0, from any state. -/
def Obligations.CfgClearUnconfiguresEverySlot : Prop :=
  decode (.command 0x60000000) = .ok .cfgClear ∧
  ∀ s : State, ∃ t, exec .cfgClear s = .next t ∧
    t = { s with slots := t.slots, count := 0, resp := .ok, result := 0 } ∧
    ∀ i : Fin 12, t.slots[i] = { pin := 0xFF, enabled := false, stable := false, raw := false, ts := 0 }

/-- R203 with R201, R202, R204, R205: `CFG_ADD p`, the checks in their order; on `OK` one slot and `count` are written, on
`REJECTED` nothing but the response. `count` is in its range (R24). For pin 1 with `PIN_MIN` = 1 the reason 3 is the model's
choice between R203's pseudocode and its corner-case line (log 15, DESIGN CHOICE). -/
def Obligations.CfgAddBindsOrRejects : Prop :=
  ∀ (p : Pin) (s : State),
    decode (.command (0x70000000 ||| p.setWidth 32)) = .ok (.cfgAdd p) ∧
    (s.count.toNat ≤ 12 → ∃ t, exec (.cfgAdd p) s = .next t ∧
      if s.count.toNat = 12 then t = { s with resp := .rejected, result := 1 }
      else if ¬ (s.params.pinMin ≤ p.toNat ∧ p.toNat ≤ s.params.pinMax) then
        t = { s with resp := .rejected, result := 2 }
      else if p = 0 ∨ p = 1 ∨ p ∈ s.params.ledPins then t = { s with resp := .rejected, result := 3 }
      else
        t = { s with slots := t.slots, count := t.count, resp := .ok, result := s.count.setWidth 32 } ∧
        t.count.toNat = s.count.toNat + 1 ∧
        ∀ i : Fin 12, t.slots[i] =
          if i.val = s.count.toNat then { pin := p, enabled := true, stable := false, raw := false, ts := s.inputs.now }
          else s.slots[i])

/-- R206: `READ_SLOT i`. -/
def Obligations.ReadSlotAnswersTheRecord : Prop :=
  ∀ (i : Arg) (s : State),
    decode (.command (0x90000000 ||| i.setWidth 32)) = .ok (.readSlot i) ∧
    (12 ≤ i.toNat → exec (.readSlot i) s = .next { s with resp := .ignored, result := 0 }) ∧
    (∀ k : Fin 12, k.val = i.toNat →
      exec (.readSlot i) s = .next { s with
        resp := .ok,
        result := BitVec.ofBool s.slots[k].enabled ++ BitVec.ofBool s.slots[k].stable ++
          BitVec.ofBool s.slots[k].raw ++ (0 : BitVec 21) ++ s.slots[k].pin } ∧
      (s.slots[k] = Slot.unconfigured → exec (.readSlot i) s = .next { s with resp := .ok, result := 0x000000FF }))

/-- R207: `READ_SLOT_TS i`. -/
def Obligations.ReadSlotTsAnswersTheTimer : Prop :=
  ∀ (i : Arg) (s : State),
    decode (.command (0xA0000000 ||| i.setWidth 32)) = .ok (.readSlotTs i) ∧
    (12 ≤ i.toNat → exec (.readSlotTs i) s = .next { s with resp := .ignored, result := 0 }) ∧
    (∀ k : Fin 12, k.val = i.toNat →
      exec (.readSlotTs i) s = .next { s with resp := .ok, result := s.slots[k].ts } ∧
      (s.slots[k] = Slot.unconfigured → exec (.readSlotTs i) s = .next { s with resp := .ok, result := 0 }))

/-- R208: `READ_STATUS`; `result[3:0]` never exceeds 12 where `count` is in its range. -/
def Obligations.ReadStatusAnswersCountAndCapacity : Prop :=
  decode (.command 0xB0000000) = .ok .readStatus ∧
  ∀ s : State, ∃ t, exec .readStatus s = .next t ∧
    t = { s with resp := .ok, result := ((12 : BitVec 8) ++ (0 : BitVec 4) ++ s.count : BitVec 16).setWidth 32 } ∧
    (s.count.toNat ≤ 12 → (t.result.extractLsb' 0 4).toNat ≤ 12)

/-- 10_state.md R30: the slot invariant holds at reset release and every step keeps it. -/
def Obligations.EveryStepKeepsTheSlotInvariant : Prop :=
  (∀ (P : Params) (inp : Inputs), SlotPrefix (State.atRelease P inp)) ∧
  ∀ s t : State, SlotPrefix s → step s = .next t → SlotPrefix t

/-- R204: once 12 slots are configured every `CFG_ADD` of a run is rejected with reason 1 until a `CFG_CLEAR`, and `count`
stays 12. -/
def Obligations.FullArrayRejectsEveryPin : Prop :=
  ∀ (es : List StepInput) (s t : State), s.count.toNat = 12 → runOn es s = .next t →
    (∀ e ∈ es, instrOf e ≠ some .cfgClear) →
    t.count.toNat = 12 ∧
    ∀ a ∈ answersOf (fun e => match instrOf e with | some (.cfgAdd _) => true | _ => false) es s, a = (.rejected, 1)

/-! ## The two agents -/

/-- 00_scope.md R14: what each response code means, for every command word: code 3 is never produced, anything but `OK`
changes nothing else, `REJECTED` is a refused `CFG_ADD`, `IGNORED` a word of no command or an argument outside its
domain. -/
def Obligations.ResponseCodesMeanWhatTheySay : Prop :=
  ∀ (w : Word) (inp : Inputs) (s : State), ∃ t, perform ⟨.hostPort w, inp⟩ s = .next t ∧
    t.resp.code ≠ 3 ∧
    (t.resp ≠ .ok → t = { s with inputs := inp, resp := t.resp, result := t.result }) ∧
    (t.resp = .rejected ↔ ∃ p, decode (.command w) = .ok (.cfgAdd p) ∧
      (s.count.toNat = 12 ∨ acceptedPin s.params p = false)) ∧
    (t.resp = .ignored ↔ (∃ e, decode (.command w) = .error e) ∨
      ∃ i, decode (.command w) = .ok i ∧ i.inDomain = false)

/-- 10_state.md R24, R34, 30_encoding.md R80, 40_qdec_fsm.md R110: who writes what: a decoder step leaves the slot array,
`count` and the response registers alone, and a command leaves `prev` alone; only `CFG_CLEAR`, `CFG_ADD` and `SCAN` write
slots, only `DRAIN` and `RESET_POS` the shared decoder registers. No step writes the parameters (R35). That no step input,
once taken, changes `pending` or `draws` is said of the model's own fields (log 1, log 2; DESIGN CHOICE). -/
def Obligations.EachAgentWritesOnlyItsRegisters : Prop :=
  ∀ (e : StepInput) (s t : State), stepOn e s = .next t →
    (e.agent = .decoder → t.slots = s.slots ∧ t.count = s.count ∧ t.resp = s.resp ∧ t.result = s.result) ∧
    (e.agent ≠ .decoder →
      t.prev = s.prev ∧
      (t.slots ≠ s.slots → instrOf e = some .cfgClear ∨ instrOf e = some .scan ∨ ∃ p, instrOf e = some (.cfgAdd p)) ∧
      (t.count ≠ s.count → instrOf e = some .cfgClear ∨ ∃ p, instrOf e = some (.cfgAdd p)) ∧
      (t.clicks ≠ s.clicks → instrOf e = some .drain ∨ ∃ p, instrOf e = some (.resetPos p)) ∧
      (t.pulses ≠ s.pulses ∨ t.position ≠ s.position → ∃ p, instrOf e = some (.resetPos p))) ∧
    t.params = s.params ∧ t.pending = s.pending ∧ t.draws = s.draws

/-- R34, 20_memory.md R61: a decoder step and a slot command in either order lead to the same registers (the input levels last
seen apart, which are no register). -/
def Obligations.DecoderStepsCommuteWithSlotCommands : Prop :=
  ∀ (s : State) (x y : Inputs) (i : Instr), refusalOf s = none →
    i ∈ [Instr.nop, .cfgClear, .scan, .readStatus] ∨ (∃ p, i = .cfgAdd p ∨ i = .readSlot p ∨ i = .readSlotTs p) →
    ∃ t u, runOn [⟨.decoder, x⟩, commandInput y i] s = .next t ∧ runOn [commandInput y i, ⟨.decoder, x⟩] s = .next u ∧
      { t with inputs := s.inputs } = { u with inputs := s.inputs }

/-! ## The host's pseudo-instructions -/

/-- 44_host_protocol.md R231, R232: a `reset` to a position in 0..99, or to 0 where the field is absent, is echoed with delta
0, and a `ping` after it, with the encoder at rest, reports exactly that position; where the field's value is an integer
outside 0..99 or no integer (D35), no command is issued and no reply is sent. -/
def Obligations.ResetThenPingReportsThePosition : Prop :=
  ∀ (s : State) (inp : Inputs) (field : Option FieldValue), refusalOf s = none →
    (∀ n : Int, 0 ≤ n ∧ n < 100 → field = some (.integer n) ∨ (field = none ∧ n = 0) →
      reply s.params (.reset field) (answers ((expand s.params (.reset field)).map (commandInput inp)) s) =
        some (.encoder 0 n.toNat) ∧
      ∃ t, runOn ((expand s.params (.reset field)).map (commandInput inp)) s = .next t ∧
        reply s.params .ping (answers ((expand s.params .ping).map (commandInput inp)) t) = some (.pong n.toNat)) ∧
    ((∃ n : Int, ¬ (0 ≤ n ∧ n < 100) ∧ field = some (.integer n)) ∨ field = some .notInteger →
      expand s.params (.reset field) = [] ∧ reply s.params (.reset field) [] = none)

/-- 44_host_protocol.md R233, 43_slot_config.md R204: whatever decoder steps fall between its commands and whatever the inputs
are, a `buttons` command reports, and leaves configured, the number of acceptable entries of its list, at most 12. An entry
is acceptable when it is an integer in the pin range and not reserved; any other, an entry that is no integer (D35) among
them, counts as skipped. -/
def Obligations.ButtonsReportsTheBoundCount : Prop :=
  ∀ (es : List StepInput) (s : State) (pins : List FieldValue), refusalOf s = none →
    commandsOf es = (expand s.params (.buttons pins)).map encode →
    ∃ t, runOn es s = .next t ∧
      let acceptable : FieldValue → Bool := fun v => match v with
        | .integer n => decide ((s.params.pinMin : Int) ≤ n ∧ n ≤ s.params.pinMax ∧ n ≠ 0 ∧ n ≠ 1 ∧
            ∀ p ∈ s.params.ledPins, (p.toNat : Int) ≠ n)
        | .notInteger => false
      let n := min 12 (pins.filter acceptable).length
      t.count.toNat = n ∧ reply s.params (.buttons pins) (answers es s) = some (.buttonsConfigured n)

/-- 44_host_protocol.md R235 (D21): a `test` command binds the six test pins to the slots 0..5 in order and lists them. -/
def Obligations.TestModeBindsTheSixPins : Prop :=
  ∀ (es : List StepInput) (s : State), refusalOf s = none →
    commandsOf es = (expand s.params .test).map encode →
    ∃ t, runOn es s = .next t ∧ t.count.toNat = 6 ∧
      (t.slots.toList.map (·.pin)).take 6 = s.params.testPins ∧
      reply s.params .test (answers es s) = some (.testMode s.params.testPins)

/-- 44_host_protocol.md R238: the messages after a `SCAN` are one per slot with an edge, in ascending slot order, each with
the slot's pin and its new stable state. -/
def Obligations.ButtonMessagesAreTheEdges : Prop :=
  ∀ (s t : State), exec .scan s = .next t →
    buttonMessages (fun i => s.slots[i].pin) (t.resp, t.result) =
      (List.finRange 12).filterMap fun i =>
        if scanEdge s.inputs s.slots[i] then some (.button s.slots[i].pin t.slots[i].stable) else none
end

