-- ==== Sys2Proof/Laws/Decode.lean ====
section
/-!
SUPPORT. Laws/Decode.lean: the fields of a command word that was put together, and the code of a sample.
-/

namespace Sys2Proof

@[simp] theorem opField_commandWord (op : BitVec 4) (arg : Arg) : opField (commandWord op arg) = op := by
  apply BitVec.eq_of_getLsbD_eq
  intro i hi
  simp only [opField, commandWord, BitVec.getLsbD_extractLsb', BitVec.getLsbD_append]
  have h1 : ¬ 28 + i < 8 := by omega
  have h2 : ¬ 28 + i - 8 < 20 := by omega
  have h3 : 28 + i - 8 - 20 = i := by omega
  simp [hi, h1, h2, h3]

@[simp] theorem mbzField_commandWord (op : BitVec 4) (arg : Arg) : mbzField (commandWord op arg) = 0 := by
  apply BitVec.eq_of_getLsbD_eq
  intro i hi
  simp only [mbzField, commandWord, BitVec.getLsbD_extractLsb', BitVec.getLsbD_append]
  have h1 : ¬ 8 + i < 8 := by omega
  have h2 : 8 + i - 8 < 20 := by omega
  rw [if_neg h1, if_pos h2]
  simp

@[simp] theorem argField_commandWord (op : BitVec 4) (arg : Arg) : argField (commandWord op arg) = arg := by
  apply BitVec.eq_of_getLsbD_eq
  intro i hi
  simp only [argField, commandWord, BitVec.getLsbD_extractLsb', BitVec.getLsbD_append]
  simp [hi]

/-- A word is its three fields (R80). -/
theorem commandWord_fields {w : Word} (h : mbzField w = 0) : commandWord (opField w) (argField w) = w := by
  apply BitVec.eq_of_getLsbD_eq
  intro i hi
  have hm := congrArg (fun v => v.getLsbD (i - 8)) h
  simp only [mbzField, BitVec.getLsbD_extractLsb'] at hm
  simp only [opField, argField, commandWord, BitVec.getLsbD_extractLsb', BitVec.getLsbD_append]
  split
  · next h8 => simp [h8]
  · next h8 =>
    split
    · next h20 =>
      have : 8 + (i - 8) = i := by omega
      simp [h20, this] at hm
      simp [hm]
    · next h20 =>
      have h1 : i - 8 - 20 < 4 := by omega
      have h2 : 28 + (i - 8 - 20) = i := by omega
      simp [h1, h2]

@[simp] theorem encoderCode_bit1 (a b : Bool) : (encoderCode a b)[1] = a := by
  cases a <;> cases b <;> decide

@[simp] theorem encoderCode_bit0 (a b : Bool) : (encoderCode a b)[0] = b := by
  cases a <;> cases b <;> decide

/-- Every code is the code of its two bits. -/
@[simp] theorem encoderCode_bits (k : Code) : encoderCode k[1] k[0] = k := by
  revert k; decide

end Sys2Proof
end

