-- ==== Sys2Proof/Laws/State.lean ====
section
/-!
SUPPORT. Laws/State.lean: one lemma per field per update of the state, so that no proof unfolds a record update.
-/

namespace Sys2Proof.Machine

variable (s : State)

@[simp] theorem respond_prev (code : Resp) (value : Word) : (respond code value s).prev = s.prev := rfl
@[simp] theorem respond_pulses (code : Resp) (value : Word) : (respond code value s).pulses = s.pulses := rfl
@[simp] theorem respond_clicks (code : Resp) (value : Word) : (respond code value s).clicks = s.clicks := rfl
@[simp] theorem respond_position (code : Resp) (value : Word) : (respond code value s).position = s.position := rfl
@[simp] theorem respond_count (code : Resp) (value : Word) : (respond code value s).count = s.count := rfl
@[simp] theorem respond_slots (code : Resp) (value : Word) : (respond code value s).slots = s.slots := rfl
@[simp] theorem respond_resp (code : Resp) (value : Word) : (respond code value s).resp = code := rfl
@[simp] theorem respond_result (code : Resp) (value : Word) : (respond code value s).result = value := rfl
@[simp] theorem respond_inputs (code : Resp) (value : Word) : (respond code value s).inputs = s.inputs := rfl
@[simp] theorem respond_pending (code : Resp) (value : Word) : (respond code value s).pending = s.pending := rfl
@[simp] theorem respond_draws (code : Resp) (value : Word) : (respond code value s).draws = s.draws := rfl
@[simp] theorem respond_params (code : Resp) (value : Word) : (respond code value s).params = s.params := rfl

@[simp] theorem ignore_prev : (ignore s).prev = s.prev := rfl
@[simp] theorem ignore_pulses : (ignore s).pulses = s.pulses := rfl
@[simp] theorem ignore_clicks : (ignore s).clicks = s.clicks := rfl
@[simp] theorem ignore_position : (ignore s).position = s.position := rfl
@[simp] theorem ignore_count : (ignore s).count = s.count := rfl
@[simp] theorem ignore_slots : (ignore s).slots = s.slots := rfl
@[simp] theorem ignore_resp : (ignore s).resp = .ignored := rfl
@[simp] theorem ignore_result : (ignore s).result = 0 := rfl
@[simp] theorem ignore_inputs : (ignore s).inputs = s.inputs := rfl
@[simp] theorem ignore_pending : (ignore s).pending = s.pending := rfl
@[simp] theorem ignore_draws : (ignore s).draws = s.draws := rfl
@[simp] theorem ignore_params : (ignore s).params = s.params := rfl

@[simp] theorem setInputs_prev (inp : Inputs) : (setInputs inp s).prev = s.prev := rfl
@[simp] theorem setInputs_pulses (inp : Inputs) : (setInputs inp s).pulses = s.pulses := rfl
@[simp] theorem setInputs_clicks (inp : Inputs) : (setInputs inp s).clicks = s.clicks := rfl
@[simp] theorem setInputs_position (inp : Inputs) : (setInputs inp s).position = s.position := rfl
@[simp] theorem setInputs_count (inp : Inputs) : (setInputs inp s).count = s.count := rfl
@[simp] theorem setInputs_slots (inp : Inputs) : (setInputs inp s).slots = s.slots := rfl
@[simp] theorem setInputs_resp (inp : Inputs) : (setInputs inp s).resp = s.resp := rfl
@[simp] theorem setInputs_result (inp : Inputs) : (setInputs inp s).result = s.result := rfl
@[simp] theorem setInputs_inputs (inp : Inputs) : (setInputs inp s).inputs = inp := rfl
@[simp] theorem setInputs_pending (inp : Inputs) : (setInputs inp s).pending = s.pending := rfl
@[simp] theorem setInputs_draws (inp : Inputs) : (setInputs inp s).draws = s.draws := rfl
@[simp] theorem setInputs_params (inp : Inputs) : (setInputs inp s).params = s.params := rfl

@[simp] theorem setDecoder_prev (c : Code) (p : BitVec 3) (q : BitVec 7) (k : BitVec 24) : (setDecoder c p q k s).prev = c := rfl
@[simp] theorem setDecoder_pulses (c : Code) (p : BitVec 3) (q : BitVec 7) (k : BitVec 24) : (setDecoder c p q k s).pulses = p := rfl
@[simp] theorem setDecoder_clicks (c : Code) (p : BitVec 3) (q : BitVec 7) (k : BitVec 24) : (setDecoder c p q k s).clicks = k := rfl
@[simp] theorem setDecoder_position (c : Code) (p : BitVec 3) (q : BitVec 7) (k : BitVec 24) : (setDecoder c p q k s).position = q := rfl
@[simp] theorem setDecoder_count (c : Code) (p : BitVec 3) (q : BitVec 7) (k : BitVec 24) : (setDecoder c p q k s).count = s.count := rfl
@[simp] theorem setDecoder_slots (c : Code) (p : BitVec 3) (q : BitVec 7) (k : BitVec 24) : (setDecoder c p q k s).slots = s.slots := rfl
@[simp] theorem setDecoder_resp (c : Code) (p : BitVec 3) (q : BitVec 7) (k : BitVec 24) : (setDecoder c p q k s).resp = s.resp := rfl
@[simp] theorem setDecoder_result (c : Code) (p : BitVec 3) (q : BitVec 7) (k : BitVec 24) : (setDecoder c p q k s).result = s.result := rfl
@[simp] theorem setDecoder_inputs (c : Code) (p : BitVec 3) (q : BitVec 7) (k : BitVec 24) : (setDecoder c p q k s).inputs = s.inputs := rfl
@[simp] theorem setDecoder_pending (c : Code) (p : BitVec 3) (q : BitVec 7) (k : BitVec 24) : (setDecoder c p q k s).pending = s.pending := rfl
@[simp] theorem setDecoder_draws (c : Code) (p : BitVec 3) (q : BitVec 7) (k : BitVec 24) : (setDecoder c p q k s).draws = s.draws := rfl
@[simp] theorem setDecoder_params (c : Code) (p : BitVec 3) (q : BitVec 7) (k : BitVec 24) : (setDecoder c p q k s).params = s.params := rfl

@[simp] theorem clearClicks_prev : (clearClicks s).prev = s.prev := rfl
@[simp] theorem clearClicks_pulses : (clearClicks s).pulses = s.pulses := rfl
@[simp] theorem clearClicks_clicks : (clearClicks s).clicks = 0 := rfl
@[simp] theorem clearClicks_position : (clearClicks s).position = s.position := rfl
@[simp] theorem clearClicks_count : (clearClicks s).count = s.count := rfl
@[simp] theorem clearClicks_slots : (clearClicks s).slots = s.slots := rfl
@[simp] theorem clearClicks_resp : (clearClicks s).resp = s.resp := rfl
@[simp] theorem clearClicks_result : (clearClicks s).result = s.result := rfl
@[simp] theorem clearClicks_inputs : (clearClicks s).inputs = s.inputs := rfl
@[simp] theorem clearClicks_pending : (clearClicks s).pending = s.pending := rfl
@[simp] theorem clearClicks_draws : (clearClicks s).draws = s.draws := rfl
@[simp] theorem clearClicks_params : (clearClicks s).params = s.params := rfl

@[simp] theorem setPosition_prev (q : BitVec 7) : (setPosition q s).prev = s.prev := rfl
@[simp] theorem setPosition_pulses (q : BitVec 7) : (setPosition q s).pulses = 0 := rfl
@[simp] theorem setPosition_clicks (q : BitVec 7) : (setPosition q s).clicks = 0 := rfl
@[simp] theorem setPosition_position (q : BitVec 7) : (setPosition q s).position = q := rfl
@[simp] theorem setPosition_count (q : BitVec 7) : (setPosition q s).count = s.count := rfl
@[simp] theorem setPosition_slots (q : BitVec 7) : (setPosition q s).slots = s.slots := rfl
@[simp] theorem setPosition_resp (q : BitVec 7) : (setPosition q s).resp = s.resp := rfl
@[simp] theorem setPosition_result (q : BitVec 7) : (setPosition q s).result = s.result := rfl
@[simp] theorem setPosition_inputs (q : BitVec 7) : (setPosition q s).inputs = s.inputs := rfl
@[simp] theorem setPosition_pending (q : BitVec 7) : (setPosition q s).pending = s.pending := rfl
@[simp] theorem setPosition_draws (q : BitVec 7) : (setPosition q s).draws = s.draws := rfl
@[simp] theorem setPosition_params (q : BitVec 7) : (setPosition q s).params = s.params := rfl

@[simp] theorem clearSlots_prev : (clearSlots s).prev = s.prev := rfl
@[simp] theorem clearSlots_pulses : (clearSlots s).pulses = s.pulses := rfl
@[simp] theorem clearSlots_clicks : (clearSlots s).clicks = s.clicks := rfl
@[simp] theorem clearSlots_position : (clearSlots s).position = s.position := rfl
@[simp] theorem clearSlots_count : (clearSlots s).count = 0 := rfl
@[simp] theorem clearSlots_slots : (clearSlots s).slots = Vector.replicate 12 Slot.unconfigured := rfl
@[simp] theorem clearSlots_resp : (clearSlots s).resp = s.resp := rfl
@[simp] theorem clearSlots_result : (clearSlots s).result = s.result := rfl
@[simp] theorem clearSlots_inputs : (clearSlots s).inputs = s.inputs := rfl
@[simp] theorem clearSlots_pending : (clearSlots s).pending = s.pending := rfl
@[simp] theorem clearSlots_draws : (clearSlots s).draws = s.draws := rfl
@[simp] theorem clearSlots_params : (clearSlots s).params = s.params := rfl

@[simp] theorem appendSlot_prev (sl : Slot) : (appendSlot sl s).prev = s.prev := rfl
@[simp] theorem appendSlot_pulses (sl : Slot) : (appendSlot sl s).pulses = s.pulses := rfl
@[simp] theorem appendSlot_clicks (sl : Slot) : (appendSlot sl s).clicks = s.clicks := rfl
@[simp] theorem appendSlot_position (sl : Slot) : (appendSlot sl s).position = s.position := rfl
@[simp] theorem appendSlot_count (sl : Slot) : (appendSlot sl s).count = s.count + 1 := rfl
@[simp] theorem appendSlot_slots (sl : Slot) : (appendSlot sl s).slots = s.slots.setIfInBounds s.count.toNat sl := rfl
@[simp] theorem appendSlot_resp (sl : Slot) : (appendSlot sl s).resp = s.resp := rfl
@[simp] theorem appendSlot_result (sl : Slot) : (appendSlot sl s).result = s.result := rfl
@[simp] theorem appendSlot_inputs (sl : Slot) : (appendSlot sl s).inputs = s.inputs := rfl
@[simp] theorem appendSlot_pending (sl : Slot) : (appendSlot sl s).pending = s.pending := rfl
@[simp] theorem appendSlot_draws (sl : Slot) : (appendSlot sl s).draws = s.draws := rfl
@[simp] theorem appendSlot_params (sl : Slot) : (appendSlot sl s).params = s.params := rfl

@[simp] theorem mapSlots_prev (f : Slot → Slot) : (mapSlots f s).prev = s.prev := rfl
@[simp] theorem mapSlots_pulses (f : Slot → Slot) : (mapSlots f s).pulses = s.pulses := rfl
@[simp] theorem mapSlots_clicks (f : Slot → Slot) : (mapSlots f s).clicks = s.clicks := rfl
@[simp] theorem mapSlots_position (f : Slot → Slot) : (mapSlots f s).position = s.position := rfl
@[simp] theorem mapSlots_count (f : Slot → Slot) : (mapSlots f s).count = s.count := rfl
@[simp] theorem mapSlots_slots (f : Slot → Slot) : (mapSlots f s).slots = Vector.ofFn fun i => f s.slots[i] := rfl
@[simp] theorem mapSlots_resp (f : Slot → Slot) : (mapSlots f s).resp = s.resp := rfl
@[simp] theorem mapSlots_result (f : Slot → Slot) : (mapSlots f s).result = s.result := rfl
@[simp] theorem mapSlots_inputs (f : Slot → Slot) : (mapSlots f s).inputs = s.inputs := rfl
@[simp] theorem mapSlots_pending (f : Slot → Slot) : (mapSlots f s).pending = s.pending := rfl
@[simp] theorem mapSlots_draws (f : Slot → Slot) : (mapSlots f s).draws = s.draws := rfl
@[simp] theorem mapSlots_params (f : Slot → Slot) : (mapSlots f s).params = s.params := rfl

@[simp] theorem placeInput_prev (e : StepInput) : (placeInput e s).prev = s.prev := rfl
@[simp] theorem placeInput_pulses (e : StepInput) : (placeInput e s).pulses = s.pulses := rfl
@[simp] theorem placeInput_clicks (e : StepInput) : (placeInput e s).clicks = s.clicks := rfl
@[simp] theorem placeInput_position (e : StepInput) : (placeInput e s).position = s.position := rfl
@[simp] theorem placeInput_count (e : StepInput) : (placeInput e s).count = s.count := rfl
@[simp] theorem placeInput_slots (e : StepInput) : (placeInput e s).slots = s.slots := rfl
@[simp] theorem placeInput_resp (e : StepInput) : (placeInput e s).resp = s.resp := rfl
@[simp] theorem placeInput_result (e : StepInput) : (placeInput e s).result = s.result := rfl
@[simp] theorem placeInput_inputs (e : StepInput) : (placeInput e s).inputs = s.inputs := rfl
@[simp] theorem placeInput_pending (e : StepInput) : (placeInput e s).pending = e :: s.pending := rfl
@[simp] theorem placeInput_draws (e : StepInput) : (placeInput e s).draws = s.draws := rfl
@[simp] theorem placeInput_params (e : StepInput) : (placeInput e s).params = s.params := rfl

end Sys2Proof.Machine
end

