-- ==== Sys2Proof/Laws/Fetch.lean ====
section
/-!
SUPPORT. Laws/Fetch.lean: what a step can do, said once.
-/

namespace Sys2Proof.Machine

/-- When the model gives the state its steps. -/
theorem refusalOf_eq_none (s : State) :
    refusalOf s = none ↔
      s.params.legal = true ∧ s.position.toNat < 100 ∧ s.pulses.toInt ≠ -4 ∧ s.count.toNat ≤ 12 := by
  by_cases h1 : s.params.legal = true <;> by_cases h2 : s.position.toNat < 100 <;>
    by_cases h3 : s.pulses.toInt = -4 <;> by_cases h4 : s.count.toNat ≤ 12 <;>
    simp [refusalOf, Config.posMod, Config.pulsesPerClick, Config.maxSlots, h1, h2, h3, h4,
      Nat.not_le_of_lt, Nat.not_lt_of_le, Nat.le_of_not_lt, Nat.lt_of_not_le]

/-- Where the state has its steps, a step is the agent's. -/
theorem stepOn_of_admitted {s : State} (h : refusalOf s = none) (e : StepInput) : stepOn e s = perform e s := by
  simp [stepOn, h]

/-- All a step that answers a next state can have done. -/
theorem stepOn_next {e : StepInput} {s t : State} (h : stepOn e s = .next t) :
    refusalOf s = none ∧
      ((∃ i, decode (portWord e) = .ok i ∧ exec i (setInputs e.inputs s) = .next t) ∨
       (∃ err, decode (portWord e) = .error err ∧ t = ignore (setInputs e.inputs s))) := by
  unfold stepOn at h
  split at h
  · simp at h
  · next hr =>
    refine ⟨hr, ?_⟩
    unfold perform at h
    split at h
    · next i hi => exact .inl ⟨i, hi, h⟩
    · next err he => exact .inr ⟨err, he, by simpa using h.symm⟩

/-- A step takes the first placed input, or a draw when none is placed. -/
theorem step_of_pending {s : State} {e : StepInput} {es : List StepInput} (h : s.pending = e :: es) :
    step s = stepOn e { s with pending := es } := by
  simp [step, nextInput, h]

theorem step_of_empty {s : State} (h : s.pending = []) :
    step s = stepOn (Config.drawStep s.draws) { s with draws := s.draws + 1 } := by
  simp [step, nextInput, h]

end Sys2Proof.Machine
end

