-- ==== Sys2Proof/Laws/Qdec.lean ====
section
/-!
SUPPORT. Laws/Qdec.lean: what the pieces of the decoder step can do.
-/

namespace Sys2Proof.Machine

/-- A transition is -1, 0 or +1 (R113). -/
theorem transition_bound (prev cur : Code) : -1 ≤ transition prev cur ∧ transition prev cur ≤ 1 := by
  revert prev cur; decide

/-- No change, no transition (R113). -/
@[simp] theorem transition_self (c : Code) : transition c c = 0 := by
  revert c; decide

/-- A move is -1, 0 or +1 for both polarities (R114). -/
theorem pulseMove_bound (invert : Bool) (prev cur : Code) :
    -1 ≤ pulseMove invert prev cur ∧ pulseMove invert prev cur ≤ 1 := by
  have := transition_bound prev cur
  unfold pulseMove; split <;> omega

/-- Toggling `INVERT` negates the move (R114). -/
theorem pulseMove_not (invert : Bool) (prev cur : Code) :
    pulseMove (!invert) prev cur = -pulseMove invert prev cur := by
  cases invert <;> simp [pulseMove]

/-- From a stored accumulator the moved one is in -4..4 (R114, R118). -/
theorem movedPulses_bound (invert : Bool) (prev : Code) {pulses : BitVec 3} (cur : Code) (h : pulses.toInt ≠ -4) :
    -4 ≤ movedPulses invert prev pulses cur ∧ movedPulses invert prev pulses cur ≤ 4 := by
  have hm := pulseMove_bound invert prev cur
  have hp : -4 ≤ pulses.toInt ∧ pulses.toInt ≤ 3 := by revert pulses; decide
  unfold movedPulses; omega

/-- The three cases of the normalisation (R115). -/
theorem clickOf_cases (p1 : Int) :
    (p1 = 4 ∧ clickOf p1 = 1) ∨ (p1 = -4 ∧ clickOf p1 = -1) ∨ (p1 ≠ 4 ∧ p1 ≠ -4 ∧ clickOf p1 = 0) := by
  by_cases h1 : p1 = 4
  · subst h1; decide
  · by_cases h2 : p1 = -4
    · subst h2; decide
    · simp [clickOf, Config.pulsesPerClick, h1, h2]

/-- Normalisation loses nothing and leaves the accumulator in -3..3 (R115, R118). -/
theorem settledPulses_spec {p1 : Int} (h : -4 ≤ p1 ∧ p1 ≤ 4) :
    4 * clickOf p1 + (settledPulses p1).toInt = p1 ∧ (settledPulses p1).toInt ≠ -4 := by
  have : p1 = -4 ∨ p1 = -3 ∨ p1 = -2 ∨ p1 = -1 ∨ p1 = 0 ∨ p1 = 1 ∨ p1 = 2 ∨ p1 = 3 ∨ p1 = 4 := by omega
  rcases this with h | h | h | h | h | h | h | h | h <;> subst h <;> decide

/-- The ring position after `n` clicks: true modulo 100, unchanged for none (R117). -/
theorem advancePosition_toNat {q : BitVec 7} (n : Int) (h : q.toNat < 100) :
    ((advancePosition q n).toNat : Int) = ((q.toNat : Int) + n) % 100 := by
  unfold advancePosition
  simp only [Config.posMod]
  split
  · next hn => subst hn; omega
  · simp only [BitVec.toNat_ofInt]
    omega

theorem advancePosition_lt {q : BitVec 7} (n : Int) (h : q.toNat < 100) : (advancePosition q n).toNat < 100 := by
  have := advancePosition_toNat n h
  omega

@[simp] theorem advancePosition_zero (q : BitVec 7) : advancePosition q 0 = q := by simp [advancePosition]

@[simp] theorem addClicks_zero (k : BitVec 24) : addClicks k 0 = k := by simp [addClicks]

/-- Clicks add up modulo 2^24 (R117). -/
theorem addClicks_add (k : BitVec 24) (m n : Int) : addClicks (addClicks k m) n = addClicks k (m + n) := by
  simp only [addClicks, BitVec.ofInt_add, BitVec.ofInt_toInt, BitVec.add_assoc]

/-- The decoder step writes the four decoder registers and nothing else (R110). -/
theorem decoderStep_frame (cur : Code) (s : State) :
    (decoderStep cur s).count = s.count ∧ (decoderStep cur s).slots = s.slots ∧ (decoderStep cur s).resp = s.resp ∧
    (decoderStep cur s).result = s.result ∧ (decoderStep cur s).inputs = s.inputs ∧
    (decoderStep cur s).pending = s.pending ∧ (decoderStep cur s).draws = s.draws ∧
    (decoderStep cur s).params = s.params := by
  simp [decoderStep]

end Sys2Proof.Machine
end

