-- ==== Sys2Proof/Laws/Slots.lean ====
section
/-!
SUPPORT. Laws/Slots.lean: what the lanes, the slot updates and the pin checks can do.
-/

namespace Sys2Proof.Machine

/-- Bit `i` of a packed slot word is slot `i`'s (R174). -/
theorem slotBits_getLsbD (f : Fin 12 → Bool) (i : Fin 12) : (slotBits f).getLsbD i.val = f i := by
  simp only [slotBits, BitVec.getLsbD_append]
  fin_cases i <;> simp

/-- The edge bits of a scan result (R87). -/
theorem scanWord_low (st ed : BitVec 12) (i : Fin 12) : (scanWord st ed).getLsbD i.val = ed.getLsbD i.val := by
  have := i.isLt
  simp only [scanWord, BitVec.getLsbD_append]
  simp [this]

/-- The stable bits of a scan result (R87). -/
theorem scanWord_high (st ed : BitVec 12) (i : Fin 12) : (scanWord st ed).getLsbD (12 + i.val) = st.getLsbD i.val := by
  have := i.isLt
  simp only [scanWord, BitVec.getLsbD_append]
  simp [this]

/-- A slot after `mapSlots` (R174). -/
@[simp] theorem mapSlots_getElem (f : Slot → Slot) (s : State) (i : Fin 12) :
    (mapSlots f s).slots[i] = f s.slots[i] := by
  simp [mapSlots]

/-- A slot after `clearSlots` (R200). -/
@[simp] theorem clearSlots_getElem (s : State) (i : Fin 12) : (clearSlots s).slots[i] = Slot.unconfigured := by
  simp [clearSlots]

/-- A slot after `appendSlot`: the one at `count` is new, the others stay (R203). -/
theorem appendSlot_getElem (sl : Slot) (s : State) (i : Fin 12) :
    (appendSlot sl s).slots[i] = if s.count.toNat = i.val then sl else s.slots[i] := by
  simp [appendSlot, Vector.getElem_setIfInBounds]

/-- The two conditions of acceptance (R173). -/
theorem accepts_iff (t : Millis) (sl : Slot) : accepts t sl = true ↔ 50 ≤ elapsed t sl ∧ sl.raw ≠ sl.stable := by
  simp only [accepts, Bool.and_eq_true, decide_eq_true_eq, bne_iff_ne]

/-- All a lane can do: re-arm or not, then accept or not (R172, R173). -/
theorem laneSlot_cases (t : Millis) (r : Bool) (sl : Slot) :
    (r ≠ sl.raw ∧ laneSlot t r sl = { sl with raw := r, ts := t } ∧ laneEdge t r sl = false) ∨
    (r = sl.raw ∧ (elapsed t sl < 50 ∨ sl.raw = sl.stable) ∧ laneSlot t r sl = sl ∧ laneEdge t r sl = false) ∨
    (r = sl.raw ∧ 50 ≤ elapsed t sl ∧ sl.raw ≠ sl.stable ∧ laneSlot t r sl = { sl with stable := sl.raw } ∧
      laneEdge t r sl = true) := by
  by_cases h : r = sl.raw
  · right
    by_cases h2 : accepts t sl = true
    · right
      have h3 := (accepts_iff t sl).1 h2
      exact ⟨h, h3.1, h3.2, by simp [laneSlot, rearm, h, settle, h2], by simp [laneEdge, rearm, h, h2]⟩
    · left
      refine ⟨h, ?_, by simp [laneSlot, rearm, h, settle, h2], by simp [laneEdge, rearm, h, h2]⟩
      rw [accepts_iff] at h2
      by_cases h4 : sl.raw = sl.stable
      · exact .inr h4
      · left; by_contra h5; exact h2 ⟨by omega, h4⟩
  · left
    have h5 : accepts t { sl with raw := r, ts := t } = false := by simp [accepts, elapsed, Config.debounceMs]
    exact ⟨h, by simp [laneSlot, rearm, h, settle, h5], by simp [laneEdge, rearm, h, h5]⟩

/-- A scan keeps a slot's pin and whether it is enabled (R174). -/
theorem scanSlot_keeps (inp : Inputs) (sl : Slot) :
    (scanSlot inp sl).pin = sl.pin ∧ (scanSlot inp sl).enabled = sl.enabled := by
  unfold scanSlot
  split
  · rcases laneSlot_cases inp.now (pressed (sampleBtn inp sl.pin)) sl with ⟨_, h, _⟩ | ⟨_, _, h, _⟩ | ⟨_, _, _, h, _⟩ <;>
      rw [h] <;> simp
  · simp

/-- The four outcomes of the checks of `CFG_ADD`, in their order (R203). -/
theorem bindRefusal_cases (P : Params) (count : BitVec 4) (p : Pin) :
    (count.toNat = 12 ∧ bindRefusal P count p = some reasonFull) ∨
    (count.toNat ≠ 12 ∧ validPin P p = false ∧ bindRefusal P count p = some reasonRange) ∨
    (count.toNat ≠ 12 ∧ validPin P p = true ∧ reservedPin P p = true ∧ bindRefusal P count p = some reasonReserved) ∨
    (count.toNat ≠ 12 ∧ validPin P p = true ∧ reservedPin P p = false ∧ bindRefusal P count p = none) := by
  by_cases h1 : count.toNat = 12 <;> by_cases h2 : validPin P p = true <;> by_cases h3 : reservedPin P p = true <;>
    simp [bindRefusal, Config.maxSlots, h1, h2, h3]

/-- An argument below 100 is that position (R82). -/
theorem positionArg_of_lt {p : Arg} (h : p.toNat < 100) : positionArg p = some (BitVec.ofNat 7 p.toNat) := by
  simp [positionArg, Config.posMod, h]

theorem positionArg_of_ge {p : Arg} (h : 100 ≤ p.toNat) : positionArg p = none := by
  simp [positionArg, Config.posMod]; omega

/-- An argument below 12 is that slot (R82). -/
theorem slotArg_of_lt {i : Arg} (h : i.toNat < 12) : slotArg i = some ⟨i.toNat, h⟩ := by simp [slotArg, h]

theorem slotArg_of_ge {i : Arg} (h : 12 ≤ i.toNat) : slotArg i = none := by
  simp [slotArg]; omega

end Sys2Proof.Machine
end

