-- ==== Sys2Proof/Laws/Exec.lean ====
section
/-!
SUPPORT. Laws/Exec.lean: what an instruction can do to the state, said once for all of them.
-/

namespace Sys2Proof.Machine

/-- All an instruction can do. Every effect but the decoder's ends in a response. -/
inductive Effect (i : Instr) (s : State) : State → Prop
  | answer (c : Resp) (w : Word) : Effect i s (respond c w s)
  | drain (h : i = .drain) : Effect i s (respond .ok (drainWord s.clicks s.position) (clearClicks s))
  | position (p : Arg) (h : i = .resetPos p) (hp : p.toNat < 100) :
      Effect i s (respond .ok (positionWord (BitVec.ofNat 7 p.toNat)) (setPosition (BitVec.ofNat 7 p.toNat) s))
  | clear (h : i = .cfgClear) : Effect i s (respond .ok 0 (clearSlots s))
  | bind (p : Pin) (h : i = .cfgAdd p) (hc : s.count.toNat ≠ 12) (hp : acceptedPin s.params p = true) :
      Effect i s (respond .ok (indexWord s.count) (appendSlot (boundSlot p s.inputs.now) s))
  | scan (h : i = .scan) : Effect i s (respond .ok (scanResult s.inputs s.slots) (mapSlots (scanSlot s.inputs) s))
  | edge (a b : Bool) (h : i = .qdecEdge a b) : Effect i s (decoderStep (encoderCode a b) s)

/-- An instruction has one of these effects. -/
theorem exec_effect (i : Instr) (s : State) : ∃ t, exec i s = .next t ∧ Effect i s t := by
  cases i with
  | nop => exact ⟨_, rfl, .answer _ _⟩
  | readPos => exact ⟨_, rfl, .answer _ _⟩
  | drain => exact ⟨_, rfl, .drain rfl⟩
  | resetPos p =>
    by_cases h : p.toNat < 100
    · exact ⟨_, by simp only [exec, execResetPos, positionArg_of_lt h], .position p rfl h⟩
    · exact ⟨_, by simp only [exec, execResetPos, positionArg_of_ge (Nat.le_of_not_lt h)]; rfl, .answer .ignored 0⟩
  | readRaw => exact ⟨_, rfl, .answer _ _⟩
  | readQdec => exact ⟨_, rfl, .answer _ _⟩
  | cfgClear => exact ⟨_, rfl, .clear rfl⟩
  | cfgAdd p =>
    rcases bindRefusal_cases s.params s.count p with ⟨_, h⟩ | ⟨_, _, h⟩ | ⟨_, _, _, h⟩ | ⟨hc, hv, hr, h⟩
    · exact ⟨_, by simp only [exec, execCfgAdd, h]; rfl, .answer _ _⟩
    · exact ⟨_, by simp only [exec, execCfgAdd, h]; rfl, .answer _ _⟩
    · exact ⟨_, by simp only [exec, execCfgAdd, h]; rfl, .answer _ _⟩
    · exact ⟨_, by simp only [exec, execCfgAdd, h], .bind p rfl hc (by simp [acceptedPin, hv, hr])⟩
  | scan => exact ⟨_, rfl, .scan rfl⟩
  | readSlot i =>
    by_cases h : i.toNat < 12
    · exact ⟨_, by simp only [exec, execReadSlot, slotArg_of_lt h]; rfl, .answer _ _⟩
    · exact ⟨_, by simp only [exec, execReadSlot, slotArg_of_ge (Nat.le_of_not_lt h)]; rfl, .answer .ignored 0⟩
  | readSlotTs i =>
    by_cases h : i.toNat < 12
    · exact ⟨_, by simp only [exec, execReadSlotTs, slotArg_of_lt h]; rfl, .answer _ _⟩
    · exact ⟨_, by simp only [exec, execReadSlotTs, slotArg_of_ge (Nat.le_of_not_lt h)]; rfl, .answer .ignored 0⟩
  | readStatus => exact ⟨_, rfl, .answer _ _⟩
  | qdecEdge a b => exact ⟨_, rfl, .edge a b rfl⟩

/-- The inversion of `exec`. -/
theorem exec_inv {i : Instr} {s t : State} (h : exec i s = .next t) : Effect i s t := by
  obtain ⟨u, hu, he⟩ := exec_effect i s
  rw [hu] at h
  injection h with h
  exact h ▸ he

end Sys2Proof.Machine
end

