-- ==== Sys2Proof/Laws/PerInstr.lean ====
section
/-!
SUPPORT. Laws/PerInstr.lean: facts made once per instruction.
-/

namespace Sys2Proof.Laws

/-- The instruction's encoding is among the words of its own row of the opcode table and of no other (30_encoding.md R83,
R85); the decoder step has no command word (R81). -/
def EncodesItsRow.Statement (i : Instr) : Prop :=
  (match encode i with
    | .command w => rowsOf w == [i.mnemonic]
    | .event _ => i.mnemonic == "QDEC_EDGE") = true

theorem EncodesItsRow.nop : EncodesItsRow.Statement .nop := by unfold Statement; decide

theorem EncodesItsRow.readPos : EncodesItsRow.Statement .readPos := by unfold Statement; decide

theorem EncodesItsRow.drain : EncodesItsRow.Statement .drain := by unfold Statement; decide

theorem EncodesItsRow.resetPos (p : Arg) : EncodesItsRow.Statement (.resetPos p) := by
  unfold Statement; revert p; decide

theorem EncodesItsRow.readRaw : EncodesItsRow.Statement .readRaw := by unfold Statement; decide

theorem EncodesItsRow.readQdec : EncodesItsRow.Statement .readQdec := by unfold Statement; decide

theorem EncodesItsRow.cfgClear : EncodesItsRow.Statement .cfgClear := by unfold Statement; decide

theorem EncodesItsRow.cfgAdd (p : Pin) : EncodesItsRow.Statement (.cfgAdd p) := by
  unfold Statement; revert p; decide

theorem EncodesItsRow.scan : EncodesItsRow.Statement .scan := by unfold Statement; decide

theorem EncodesItsRow.readSlot (i : Arg) : EncodesItsRow.Statement (.readSlot i) := by
  unfold Statement; revert i; decide

theorem EncodesItsRow.readSlotTs (i : Arg) : EncodesItsRow.Statement (.readSlotTs i) := by
  unfold Statement; revert i; decide

theorem EncodesItsRow.readStatus : EncodesItsRow.Statement .readStatus := by unfold Statement; decide

theorem EncodesItsRow.qdecEdge (a b : Bool) : EncodesItsRow.Statement (.qdecEdge a b) := by
  unfold Statement; revert a b; decide

end Sys2Proof.Laws
end

