-- ==== Sys2Proof/Laws/Protocol.lean ====
section
/-!
SUPPORT. Laws/Protocol.lean: which fields of a wire command become arguments of block commands (44_host_protocol.md R231,
R233, D35).
-/

namespace Sys2Proof.Machine

/-- A list entry names a pin exactly when it is that pin's number as an integer. -/
theorem pinOfEntry_eq_some {v : FieldValue} {p : Pin} : pinOfEntry v = some p ↔ v = .integer p.toNat := by
  cases v with
  | integer n =>
    simp only [pinOfEntry, Option.ite_none_right_eq_some, Option.some.injEq, FieldValue.integer.injEq]
    constructor
    · rintro ⟨h, rfl⟩
      simp only [BitVec.toNat_ofInt]
      omega
    · rintro rfl
      exact ⟨by have := p.isLt; omega, by simp⟩
  | notInteger => simp [pinOfEntry]

/-- A `position` field gives a `RESET_POS` exactly when it is an integer in 0..99, or is absent, which stands for 0. -/
theorem positionOfField_eq_some {field : Option FieldValue} {p : Arg} :
    positionOfField field = some p ↔
      (field = none ∧ p = 0) ∨ (p.toNat < 100 ∧ field = some (.integer p.toNat)) := by
  match field with
  | none =>
    simp only [positionOfField, Option.some.injEq, reduceCtorEq, and_false, or_false, true_and]
    exact eq_comm
  | some .notInteger => simp [positionOfField]
  | some (.integer n) =>
    simp only [positionOfField, Config.posMod, Option.ite_none_right_eq_some, Option.some.injEq, FieldValue.integer.injEq,
      reduceCtorEq, false_and, false_or]
    constructor
    · rintro ⟨h, rfl⟩
      simp only [BitVec.toNat_ofInt]
      omega
    · rintro ⟨h, rfl⟩
      exact ⟨by omega, by simp⟩

end Sys2Proof.Machine
end

