-- ==== Sys2Proof/Tests/Slice0.lean ====
section
/-!
SUPPORT. Tests/Slice0.lean: the ill-formed terms, the words written out from the encoding, one-step tests with the expected
values of 95_test_vectors.md (the vector's name stands in each comment), and a witness for the hypotheses of each statement.
-/

namespace Sys2Proof.Tests

open Sys2Proof Sys2Proof.Machine

/-! ## Small states and inputs -/

/-- Levels: the encoder at `(a, b)`, the pins of `low` at level 0 and all others at 1, the time `t`. -/
def at' (a b : Bool) (low : List Nat) (t : Nat) : Inputs where
  encA  := a
  encB  := b
  btnIn := ~~~ (low.foldl (fun m p => m ||| BitVec.ofNat 256 (2 ^ p)) 0)
  now   := stamp t

/-- Encoder at (0, 0), every button level 1, time 0. -/
def quiet : Inputs := at' false false [] 0

/-- Reset released at the quiet levels, example instantiation. -/
def start : State := State.atRelease Config.exampleParams quiet

/-- A decoder state `{prev, pulses, position, clicks}` of 95_test_vectors.md. -/
def dec (prev : Code) (pulses : Int) (position : Nat) (clicks : Int) : State :=
  { start with prev := prev, pulses := BitVec.ofInt 3 pulses, position := BitVec.ofNat 7 position,
               clicks := BitVec.ofInt 24 clicks }

/-- The same block with `INVERT` = 0. -/
def plain (s : State) : State := { s with params := { s.params with invert := false } }

/-- A configured slot `{pin, stable, raw, ts}`. -/
def bound (pin : Pin) (stable raw : Bool) (ts : Nat) : Slot :=
  { pin := pin, enabled := true, stable := stable, raw := raw, ts := stamp ts }

/-- The first slots as listed, the others unconfigured, `count` to match, the levels on the ports. -/
def withSlots (inp : Inputs) (l : List Slot) : State :=
  { start with
    slots := Vector.ofFn fun i => l.getD i.val Slot.unconfigured
    count := BitVec.ofNat 4 l.length
    inputs := inp }

/-- All 12 slots bound, to the pins 2..13. -/
def full : State := withSlots quiet ((List.range 12).map fun k => bound (BitVec.ofNat 8 (k + 2)) false false 0)

/-- A command word at the host port. -/
def cmd (inp : Inputs) (w : Word) : StepInput := ⟨.hostPort w, inp⟩

/-- The outcome is a next state with this property. -/
def gives (o : Host.Outcome State Fault Refusal) (p : State → Bool) : Bool :=
  match o with
  | .next t => p t
  | .fault _ => false
  | .refused _ => false

/-- The outcome is this refusal. -/
def refuses (o : Host.Outcome State Fault Refusal) (r : Refusal) : Bool :=
  match o with
  | .next _ => false
  | .fault _ => false
  | .refused q => q == r

/-- The response and the result. -/
def answer (t : State) : Answer := (t.resp, t.result)

/-- The outcome answers `a` and differs from `s` in `resp` and `result` only. -/
def onlyAnswers (o : Host.Outcome State Fault Refusal) (s : State) (a : Answer) : Bool :=
  gives o fun t => t == { s with resp := a.1, result := a.2 }

/-- `{prev, pulses, position, clicks}` of a state. -/
def decoderView (s : State) : Code × Int × Nat × Int := (s.prev, s.pulses.toInt, s.position.toNat, s.clicks.toInt)

theorem exists_next {o : Host.Outcome State Fault Refusal} {p : State → Bool} (h : gives o p = true) :
    ∃ t, o = .next t ∧ p t = true := by
  cases o with
  | next t => exact ⟨t, rfl, h⟩
  | fault f => cases f
  | refused r => simp [gives] at h

/-! ## Well-formedness: one term for each check, which it refuses -/

theorem test_inDomain_resetPos : (Instr.resetPos 99).inDomain = true ∧ (Instr.resetPos 100).inDomain = false := by decide

theorem test_inDomain_readSlot : (Instr.readSlot 11).inDomain = true ∧ (Instr.readSlot 12).inDomain = false := by decide

theorem test_inDomain_readSlotTs : (Instr.readSlotTs 11).inDomain = true ∧ (Instr.readSlotTs 12).inDomain = false := by
  decide

theorem test_legal_example : Config.exampleParams.legal = true := by decide

theorem test_rangeLegal_refuses :
    ({ Config.exampleParams with pinMin := 3 } : Params).rangeLegal = false ∧
    ({ Config.exampleParams with pinMax := 2 } : Params).rangeLegal = false ∧
    ({ Config.exampleParams with pinMax := 100 } : Params).rangeLegal = false := by decide

theorem test_ledCountLegal_refuses :
    ({ Config.exampleParams with ledPins := [25, 26] } : Params).ledCountLegal = false ∧
    ({ Config.exampleParams with ledPins := [25, 25, 26] } : Params).ledCountLegal = false := by decide

theorem test_ledPinsLegal_refuses :
    ({ Config.exampleParams with ledPins := [2] } : Params).ledPinsLegal = false ∧
    ({ Config.exampleParams with ledPins := [25, 3, 26] } : Params).ledPinsLegal = false := by decide

theorem test_testCountLegal_refuses :
    ({ Config.exampleParams with testPins := [2, 3, 4, 5, 6] } : Params).testCountLegal = false := by decide

theorem test_testPinsLegal_refuses :
    ({ Config.exampleParams with testPins := [2, 3, 4, 5, 6, 25] } : Params).testPinsLegal = false ∧
    ({ Config.exampleParams with testPins := [2, 3, 4, 5, 6, 30] } : Params).testPinsLegal = false := by decide

/-! ## Words written out bit by bit from 30_encoding.md R80, R81, R83 -/

theorem test_words_of_R83 :
    decodeCommand 0b00000000000000000000000000000000 = .ok .nop ∧
    decodeCommand 0b00010000000000000000000000000000 = .ok .readPos ∧
    decodeCommand 0b00100000000000000000000000000000 = .ok .drain ∧
    decodeCommand 0b00110000000000000000000001100011 = .ok (.resetPos 99) ∧
    decodeCommand 0b01000000000000000000000000000000 = .ok .readRaw ∧
    decodeCommand 0b01010000000000000000000000000000 = .ok .readQdec ∧
    decodeCommand 0b01100000000000000000000000000000 = .ok .cfgClear ∧
    decodeCommand 0b01110000000000000000000000000010 = .ok (.cfgAdd 2) ∧
    decodeCommand 0b10000000000000000000000000000000 = .ok .scan ∧
    decodeCommand 0b10010000000000000000000000001011 = .ok (.readSlot 11) ∧
    decodeCommand 0b10100000000000000000000011111111 = .ok (.readSlotTs 255) ∧
    decodeCommand 0b10110000000000000000000000000000 = .ok .readStatus := by decide

/-- The event of R81, channel A in bit 1: all four samples. -/
theorem test_events_of_R81 :
    decode (.event 0b00) = .ok (.qdecEdge false false) ∧ decode (.event 0b01) = .ok (.qdecEdge false true) ∧
    decode (.event 0b10) = .ok (.qdecEdge true false) ∧ decode (.event 0b11) = .ok (.qdecEdge true true) := by decide

/-- R84: each reason by name, in the rule's order (K19, K20, K21, K22, A15, A16, S16; the lowest and highest MBZ bit). -/
theorem test_words_refused_by_name :
    decodeCommand 0xC0000000 = .error .reservedOpcode ∧ decodeCommand 0xF00000FF = .error .reservedOpcode ∧
    decodeCommand 0xC0000100 = .error .reservedOpcode ∧ decodeCommand 0x30100032 = .error .reservedBits ∧
    decodeCommand 0x00000100 = .error .reservedBits ∧ decodeCommand 0x28000001 = .error .reservedBits ∧
    decodeCommand 0x00000001 = .error .argNotAllowed ∧ decodeCommand 0x20000001 = .error .argNotAllowed ∧
    decodeCommand 0x60000005 = .error .argNotAllowed ∧ decodeCommand 0x80000001 = .error .argNotAllowed ∧
    decodeBytes [0x30, 0x00] = .error .notOneWord := by decide

/-- R68: bits 7..0 go first. -/
theorem test_bytes_of_a_word : decodeBytes [0x32, 0x00, 0x00, 0x30] = .ok (.resetPos 50) := by decide

theorem test_decodeTableWord :
    decodeTableWord 32 0x30000032 = some (.resetPos 50) ∧ decodeTableWord 32 0x80000000 = some .scan ∧
    decodeTableWord 32 0xC0000000 = none ∧ decodeTableWord 8 2 = some (.qdecEdge true false) ∧
    decodeTableWord 8 4 = none := by decide

/-- R88. -/
theorem test_assemble :
    assemble "RESET_POS" [50] = some (.resetPos 50) ∧ assemble "EDGE" [1, 0] = some (.qdecEdge true false) ∧
    assemble "SCAN" [] = some .scan ∧ assemble "READ_SLOT" [256] = none ∧ assemble "DRAIN" [1] = none := by decide

/-! ## One step of each instruction -/

/-- K18. -/
theorem test_nop : onlyAnswers (exec .nop full) full (.ok, 0) = true := by decide

/-- A1. -/
theorem test_readPos : onlyAnswers (exec .readPos (dec 0 0 42 0)) (dec 0 0 42 0) (.ok, 0x2A) = true := by decide

/-- A4 and A5: negative clicks, and nothing left for the second one. -/
theorem test_drain_negative :
    gives (exec .drain (dec 0 0 0 (-2))) (fun t => answer t == (.ok, 0xFFFFFE00) && t.clicks == 0 &&
      gives (exec .drain t) (fun u => answer u == (.ok, 0))) = true := by decide

/-- A6. -/
theorem test_drain_extreme : gives (exec .drain (dec 0 0 1 (-(2 ^ 23)))) (fun t => answer t == (.ok, 0x80000001)) = true := by
  decide

/-- A7 and A8: the largest position; `prev` stays, both accumulators are zeroed. -/
theorem test_resetPos :
    gives (exec (.resetPos 99) (dec 1 (-3) 42 7))
      (fun t => answer t == (.ok, 0x63) && decoderView t == (1, 0, 99, 0)) = true := by decide

/-- A9. -/
theorem test_resetPos_out_of_domain :
    onlyAnswers (exec (.resetPos 100) (dec 1 (-3) 42 7)) (dec 1 (-3) 42 7) (.ignored, 0) = true := by decide

/-- A11: channel B alone, `prev` untouched. -/
theorem test_readRaw :
    gives (stepOn (cmd (at' false true [] 0) 0x40000000) start) (fun t => answer t == (.ok, 1) && t.prev == 0) = true := by
  decide

/-- A13. -/
theorem test_readQdec : onlyAnswers (exec .readQdec (dec 3 3 0 0)) (dec 3 3 0 0) (.ok, 0x33) = true := by decide

/-- A14. -/
theorem test_readQdec_negative : onlyAnswers (exec .readQdec (dec 0 (-3) 0 0)) (dec 0 (-3) 0 0) (.ok, 0x50) = true := by
  decide

/-- K1. -/
theorem test_cfgClear :
    gives (exec .cfgClear full) (fun t => answer t == (.ok, 0) && t.count == 0 &&
      t.slots == Vector.replicate 12 Slot.unconfigured) = true := by decide

/-- K2 and K11: a new slot with `ts` = now, the same pin accepted again. -/
theorem test_cfgAdd :
    gives (stepOn (cmd (at' false false [] 500) 0x70000002) start) (fun t =>
      answer t == (.ok, 0) && t.slots[0] == bound 2 false false 500 && t.count == 1 &&
      gives (exec (.cfgAdd 2) t) (fun u => answer u == (.ok, 1) && u.count == 2)) = true := by decide

/-- K5, K7, K8 and K13: reserved, LED, range, and full before range. -/
theorem test_cfgAdd_rejects :
    onlyAnswers (exec (.cfgAdd 0) start) start (.rejected, 3) = true ∧
    onlyAnswers (exec (.cfgAdd 25) start) start (.rejected, 3) = true ∧
    onlyAnswers (exec (.cfgAdd 30) start) start (.rejected, 2) = true ∧
    onlyAnswers (exec (.cfgAdd 100) full) full (.rejected, 1) = true := by decide

/-- S4 and S3: an edge at 50 ms, none at 49. -/
theorem test_scan_window :
    gives (exec .scan (withSlots (at' false false [2] 150) [bound 2 false true 100]))
      (fun t => answer t == (.ok, 0x00001001) && t.slots[0] == bound 2 true true 100) = true ∧
    gives (exec .scan (withSlots (at' false false [2] 149) [bound 2 false true 100]))
      (fun t => answer t == (.ok, 0) && t.slots[0] == bound 2 false true 100) = true := by decide

/-- S13 and S9: two lanes in different states, and a wrapped time. -/
theorem test_scan_lanes :
    gives (exec .scan (withSlots (at' false false [2] 1050) [bound 2 false true 1000, bound 3 true false 1030]))
      (fun t => answer t == (.ok, 0x00003001) && t.slots[0] == bound 2 true true 1000 &&
        t.slots[1] == bound 3 true false 1030) = true ∧
    gives (exec .scan (withSlots (at' false false [2] 0x22) [bound 2 false true 0xFFFFFFF0]))
      (fun t => answer t == (.ok, 0x00001001)) = true := by decide

/-- K15, K16 and P4: an unconfigured slot, no slot, the last slot. -/
theorem test_readSlot :
    onlyAnswers (exec (.readSlot 11) start) start (.ok, 0xFF) = true ∧
    onlyAnswers (exec (.readSlot 12) start) start (.ignored, 0) = true ∧
    onlyAnswers (exec (.readSlot 11) full) full (.ok, 0x8000000D) = true := by decide

/-- K4 and K17. -/
theorem test_readSlotTs :
    gives (exec (.readSlotTs 0) (withSlots quiet [bound 2 false false 500])) (fun t => answer t == (.ok, 0x1F4)) = true ∧
    onlyAnswers (exec (.readSlotTs 255) start) start (.ignored, 0) = true := by decide

/-- K14. -/
theorem test_readStatus : onlyAnswers (exec .readStatus full) full (.ok, 0xC0C) = true := by decide

/-- Q0 to Q15: the pulses after each of the sixteen transitions, in the vectors' order. -/
theorem test_qdecEdge_table :
    ((List.range 16).map fun k =>
      match exec (.qdecEdge (k.testBit 1) (k.testBit 0)) (dec (BitVec.ofNat 2 (k / 4)) 0 10 0) with
      | .next t => t.pulses.toInt
      | .fault _ => 9
      | .refused _ => 9) = [0, 1, -1, 0, -1, 0, 0, 1, 1, 0, 0, -1, 0, -1, 1, 0] := by decide

/-- N1, N2, N3, N4 and N5: the clicks of both signs, both wraps, the other polarity, and a skip. -/
theorem test_qdecEdge_corners :
    gives (exec (.qdecEdge false true) (dec 0 3 10 0)) (fun t => decoderView t == (1, 0, 11, 1)) = true ∧
    gives (exec (.qdecEdge true false) (dec 0 (-3) 0 0)) (fun t => decoderView t == (2, 0, 99, -1)) = true ∧
    gives (exec (.qdecEdge false false) (dec 2 3 99 (2 ^ 23 - 1)))
      (fun t => decoderView t == (0, 0, 0, -(2 ^ 23)) && t.clicks == 0x800000) = true ∧
    gives (exec (.qdecEdge true false) (plain (dec 0 3 10 0))) (fun t => decoderView t == (2, 0, 11, 1)) = true ∧
    gives (exec (.qdecEdge true true) (dec 0 3 10 0)) (fun t => decoderView t == (3, 3, 10, 0)) = true := by decide

/-! ## The step -/

/-- The first step after reset runs what was placed: a command, an ignored word, an event. -/
theorem test_withFetchWord :
    gives (step (State.reset.withFetchWord 32 0x30000032)) (fun t => answer t == (.ok, 50) && t.position == 50) = true ∧
    gives (step (State.reset.withFetchWord 32 0xC0000000)) (fun t => answer t == (.ignored, 0)) = true ∧
    gives (step (State.reset.withFetchWord 8 0b10)) (fun t => t.prev == 0b10) = true := by decide

/-- 00_scope.md R8 and 93_implementation_defined.md: what the step refuses, by name. -/
theorem test_step_refuses :
    refuses (step { start with params := { Config.exampleParams with pinMax := 100 } }) .illegalInstantiation = true ∧
    refuses (step { start with position := 100 }) .positionEncoding = true ∧
    refuses (step { start with pulses := 0b100 }) .pulsesEncoding = true ∧
    refuses (step { start with count := 13 }) .countEncoding = true := by decide

/-! ## The host -/

/-- W2, with three entries more that name no pin (44_host_protocol.md R233), and the messages of P1 (R237) and R239. -/
theorem test_protocol :
    (expand Config.exampleParams (.buttons [.integer 2, .notInteger, .integer 3, .integer 100, .integer 256, .integer (-1)])).map encode =
      [0x60000000, 0x70000002, 0x70000003, 0x70000064, 0xB0000000].map PortWord.command ∧
    (let list := [FieldValue.integer 2, .integer 3, .integer 100, .notInteger]
     reply Config.exampleParams (.buttons list)
      (answers ((expand Config.exampleParams (.buttons list)).map (commandInput quiet)) full) =
        some (.buttonsConfigured 2)) ∧
    expand Config.exampleParams .unparsed = [] ∧ reply Config.exampleParams .unparsed [] = none ∧
    encoderMessage (.ok, 0xFFFFFE63) = some (.encoder (-2) 99) ∧ encoderMessage (.ok, 0x00000005) = none ∧
    heartbeatMessage (.ok, 5) (.ok, 2) = .heartbeat 5 true false := by decide

/-! ## Witnesses: states and operands that meet the hypotheses of a statement, each clause at a boundary value -/

/-- One turn of the encoder with channel B leading, then the same steps again. -/
def turns : List (Bool × Bool) :=
  [(false, true), (true, true), (true, false), (false, false), (false, true), (true, true), (true, false), (false, false)]

/-- A run of the block with steps of both agents: a click, a `DRAIN`, an ignored word, a `RESET_POS`, a `CFG_ADD`, two scans. -/
def mixed : List StepInput :=
  edges quiet (turns.take 4) ++
    [cmd quiet 0x20000000, cmd quiet 0xC0000000, cmd quiet 0x30000063, cmd quiet 0x70000002,
      cmd (at' true false [2] 100) 0x80000000, cmd (at' true false [2] 150) 0x80000000]

/-- Two slots, the first about to make its edge. -/
def twoSlots : State := withSlots (at' false false [2] 150) [bound 2 false true 100, bound 3 false false 0]

theorem inv_start : Inv start where
  legal := by decide
  range := ⟨by decide, by decide, by decide⟩
  slots := by unfold SlotPrefix; decide
  pins  := by unfold PinsAccepted; decide

theorem inv_full : Inv full where
  legal := by decide
  range := ⟨by decide, by decide, by decide⟩
  slots := by unfold SlotPrefix; decide
  pins  := by unfold PinsAccepted; decide

theorem inv_twoSlots : Inv twoSlots where
  legal := by decide
  range := ⟨by decide, by decide, by decide⟩
  slots := by unfold SlotPrefix; decide
  pins  := by unfold PinsAccepted; decide

/-- The words of the four clauses of CommandWordsDecodeInOrder, at the edges of each. -/
theorem witness_CommandWordsDecodeInOrder :
    (0xC ≤ ((0xC0000000 : Word).extractLsb' 28 4).toNat ∧ 0xC ≤ ((0xFFFFFFFF : Word).extractLsb' 28 4).toNat) ∧
    (((0xBFFFFFFF : Word).extractLsb' 28 4).toNat < 0xC ∧ (0xBFFFFFFF : Word).extractLsb' 8 20 ≠ 0 ∧
      (0x00000100 : Word).extractLsb' 8 20 ≠ 0) ∧
    ((0x20000001 : Word).extractLsb' 8 20 = 0 ∧ ((0x20000001 : Word).extractLsb' 28 4).toNat ∈
      [0x0, 0x1, 0x2, 0x4, 0x5, 0x6, 0x8, 0xB] ∧ (0x20000001 : Word).extractLsb' 0 8 ≠ 0) ∧
    ((0x700000FF : Word).extractLsb' 8 20 = 0 ∧ ((0x700000FF : Word).extractLsb' 28 4).toNat ∉
      [0x0, 0x1, 0x2, 0x4, 0x5, 0x6, 0x8, 0xB]) := by decide

theorem witness_StepRunsTheDecodedInstruction :
    (placeInput (cmd quiet 0x30000063) start).pending = cmd quiet 0x30000063 :: [] ∧
    refusalOf (placeInput (cmd quiet 0x30000063) start) = none ∧
    decode (portWord (cmd quiet 0x30000063)) = .ok (.resetPos 99) ∧
    decode (portWord (cmd quiet 0xC0000000)) = .error .reservedOpcode ∧
    State.reset.pending = [] ∧ refusalOf { start with count := 13 } = some .countEncoding := by decide

/-- Legal instantiations at both ends of the ranges of R8, and illegal ones just past them. -/
theorem witness_OnlyLegalInstantiationsRun :
    (⟨2, 99, [25, 98, 99], [2, 3, 4, 5, 6, 7], true⟩ : Params).legal = true ∧
    (⟨0, 3, [9], [2, 3, 2, 3, 2, 3], false⟩ : Params).legal = true ∧
    (⟨3, 99, [25], [4, 5, 6, 7, 8, 9], true⟩ : Params).legal = false ∧
    (⟨0, 100, [25], [2, 3, 4, 5, 6, 7], true⟩ : Params).legal = false := by decide

theorem witness_TheBlockNeverStops : Inv start ∧ Inv full ∧ Inv twoSlots := ⟨inv_start, inv_full, inv_twoSlots⟩

theorem witness_EveryStepKeepsTheInvariant :
    Inv (placeInput (cmd quiet 0x70000002) start) ∧
    ∃ t, step (placeInput (cmd quiet 0x70000002) start) = .next t ∧ (t.count == 1) = true :=
  ⟨⟨inv_start.legal, ⟨by decide, by decide, by decide⟩, inv_start.slots, inv_start.pins⟩, exists_next (by decide)⟩

theorem witness_InvariantHoldsAtReset : Config.exampleParams.legal = true := by decide

/-- Both ends of the range, and a run from reset release. -/
theorem witness_AccumulatorStaysBelowFour :
    (∃ t, runOn mixed (State.atRelease Config.exampleParams quiet) = .next t ∧ (t.prev == 0) = true) ∧
    (-3 ≤ (dec 0 3 0 0).pulses.toInt ∧ (dec 0 3 0 0).pulses.toInt ≤ 3) ∧
    (-3 ≤ (dec 0 (-3) 0 0).pulses.toInt ∧ (dec 0 (-3) 0 0).pulses.toInt ≤ 3) :=
  ⟨exists_next (by decide), by decide, by decide⟩

theorem witness_IdleStepChangesNothing :
    (-3 ≤ (dec 1 (-3) 10 4).pulses.toInt ∧ encoderCode false true = (dec 1 (-3) 10 4).prev) ∧
    ∃ t, runOn mixed start = .next t ∧ (refusalOf t == none && encoderCode false false == t.prev) = true :=
  ⟨by decide, exists_next (by decide)⟩

theorem witness_InvalidStepChangesOnlyPrev :
    -3 ≤ (dec 0 (-3) 10 0).pulses.toInt ∧ encoderCode true true = ~~~(dec 0 (-3) 10 0).prev ∧
    -3 ≤ (dec 2 3 10 0).pulses.toInt ∧ encoderCode false true = ~~~(dec 2 3 10 0).prev := by decide

theorem witness_ReplayLaw :
    refusalOf (dec 0 3 99 (2 ^ 23 - 1)) = none ∧ (∀ e ∈ edges quiet turns, e.agent = .decoder) ∧
    sumRun clicksMade (edges quiet turns) (dec 0 3 99 (2 ^ 23 - 1)) = 2 := by decide

theorem witness_DirectionLaw :
    refusalOf (dec 0 0 99 0) = none ∧ (dec 0 0 99 0).prev = 0 ∧ (dec 0 0 99 0).pulses = 0 ∧
    refusalOf (plain (dec 0 0 0 0)) = none ∧ (plain (dec 0 0 0 0)).prev = 0 ∧ (plain (dec 0 0 0 0)).pulses = 0 := by decide

/-- Four moves of each sign, and eight; phases 3 and -1 for the two clauses. -/
theorem witness_FourPulseLaw :
    refusalOf (dec 0 3 10 0) = none ∧ movesOf true 0 (turns.take 4) = List.replicate 4 1 ∧
    movesOf false 0 (turns.take 4) = List.replicate 4 (-1) ∧ movesOf true 0 turns = List.replicate 8 1 ∧
    0 ≤ (1 : Int) * (dec 0 3 10 0).pulses.toInt ∧ (1 : Int) * (dec 0 (-1) 10 0).pulses.toInt < 0 ∧
    refusalOf (dec 0 (-1) 10 0) = none ∧
    sumRun clicksCounted (edges quiet (turns.take 4)) (dec 0 (-1) 10 0) = 0 ∧
    sumRun clicksCounted (edges quiet turns) (dec 0 3 10 0) = 2 := by decide

theorem witness_PrevIsTheLastDecoderSample :
    ∃ t, runOn mixed start = .next t ∧ (t.prev == lastCode start.prev mixed) = true := exists_next (by decide)

theorem witness_NopOnlyAnswers :
    (0x00000001 : Word).extractLsb' 28 4 = 0 ∧ (0x00000001 : Word) ≠ 0 ∧ (0x0FFFFFFF : Word).extractLsb' 28 4 = 0 := by decide

theorem witness_ReadPosAnswersThePosition : (dec 0 0 99 0).position.toNat < 100 := by decide

theorem witness_ResetPosWritesOrIgnores : ¬ 100 ≤ (99 : Arg).toNat ∧ 100 ≤ (100 : Arg).toNat := by decide

theorem witness_ReadQdecAnswersTheHiddenState : -3 ≤ (dec 0 (-3) 0 0).pulses.toInt := by decide

/-- A run that returns a click and discards one. -/
theorem witness_ClicksAreConserved :
    ∃ t, runOn (mixed ++ edges quiet (turns.take 4) ++ [cmd quiet 0x30000000]) start = .next t ∧
      (t.clicks == 0 && sumRun clicksReturned mixed start == 1) = true := exists_next (by decide)

/-- Three moves of one sign after `RESET_POS 99`. -/
theorem witness_ResetThenReadAnswersTheSetPosition :
    refusalOf (dec 0 3 10 5) = none ∧ (99 : Arg).toNat < 100 ∧
    (movesOf (dec 0 3 10 5).params.invert (dec 0 3 10 5).prev (turns.take 3)).count 1 = 3 ∧
    (movesOf (dec 0 3 10 5).params.invert (dec 0 3 10 5).prev (turns.take 3)).count (-1) = 0 ∧
    gives (stepOn (commandInput quiet (.resetPos 99)) (dec 0 3 10 5))
      (fun t => sumRun clicksCounted (edges quiet (turns.take 3)) t == 0) = true := by decide

/-- Two states with the same decoder registers and different slots, times and buttons. -/
theorem witness_EncoderCommandsKeepOutOfTheSlots :
    full.prev = start.prev ∧ full.pulses = start.pulses ∧ full.clicks = start.clicks ∧ full.position = start.position ∧
    full.inputs.encA = start.inputs.encA ∧ full.inputs.encB = start.inputs.encB ∧ full.slots ≠ start.slots ∧
    Instr.drain ∈ [Instr.readPos, .drain, .readRaw, .readQdec] := by decide

theorem witness_ReadingCommandsChangeNoState :
    Instr.nop ∈ [Instr.readPos, .readRaw, .readQdec, .readStatus, .nop] ∧
    ∃ k, Instr.readSlotTs 255 = .readSlot k ∨ Instr.readSlotTs 255 = .readSlotTs k := ⟨by decide, 255, .inr rfl⟩

/-- Slot 0 makes its edge, slot 1 is enabled and makes none, slot 11 is not enabled. -/
theorem witness_ScanRunsEveryEnabledLane :
    twoSlots.slots[0].enabled = true ∧ twoSlots.slots[1].enabled = true ∧ twoSlots.slots[11].enabled = false ∧
    scanEdge twoSlots.inputs twoSlots.slots[0] = true ∧ scanEdge twoSlots.inputs twoSlots.slots[1] = false := by decide

theorem witness_ScanOfAnEmptyArrayHasNoEffect : SlotPrefix start ∧ start.count = 0 := ⟨inv_start.slots, by decide⟩

/-- Lanes 0 and 1 of two states, bound to different pins at the same level. -/
theorem witness_LanesAreIndependent :
    let u := withSlots (at' true true [9] 150) [bound 3 true true 0, bound 9 false true 100]
    (∃ t, exec .scan twoSlots = .next t) ∧ (∃ v, exec .scan u = .next v) ∧
    (twoSlots.slots[0].enabled = u.slots[1].enabled ∧ twoSlots.slots[0].raw = u.slots[1].raw ∧
      twoSlots.slots[0].ts = u.slots[1].ts ∧ twoSlots.slots[0].stable = u.slots[1].stable) ∧
    twoSlots.inputs.now = u.inputs.now ∧
    twoSlots.inputs.btnIn.getLsbD twoSlots.slots[0].pin.toNat = u.inputs.btnIn.getLsbD u.slots[1].pin.toNat :=
  ⟨⟨_, rfl⟩, ⟨_, rfl⟩, by decide, by decide, by decide⟩

theorem witness_EdgeCondition :
    (∃ t, exec .scan twoSlots = .next t ∧ (t.result.getLsbD 0) = true) ∧ twoSlots.slots[0].enabled = true :=
  ⟨exists_next (by decide), by decide⟩

theorem witness_TimestampOfAStableSlotIsIrrelevant : laneView (bound 2 true true 7) = .stable (bound 2 true true 7).stable := by
  decide

/-- P2, steps 6 to 10 and a later scan: gaps of 5 ms and of 49 ms, the edge exactly at 50; and a flicker that returns. -/
theorem witness_FlickerLaw :
    (bound 2 false false 0).raw = (bound 2 false false 0).stable ∧
    flickers true 10 [(15, false), (20, true), (69, true)] = some (true, 20) ∧
    scansFrom 20 [69, 70, 70 + 2 ^ 31 - 1] = true ∧
    laneEdges (stamped [(10, true), (15, false), (20, true), (69, true), (70, true), (90, true)]) (bound 2 false false 0) =
      [false, false, false, false, true, false] ∧
    flickers true 10 [(15, false)] = some (false, 15) ∧
    scansFrom 15 [15 + 2 ^ 31 - 1] = true := by decide

/-- Changes 49 ms apart, from a slot that has long passed its window. -/
theorem witness_ContinuousBouncePostponesForever :
    (bound 2 false true 100).ts = stamp 100 ∧
    (flickers (bound 2 false true 100).raw 100 [(149, false), (198, true), (247, false)]).isSome = true := by decide

/-- Both clauses at their ends: `k` = 0 and 49, `d` = 49, 50 and 2^32 - 1. -/
theorem witness_ElapsedTimeWraps :
    (bound 2 false true 100).ts = stamp 100 ∧ laneEdge (stamp (100 + 2 ^ 32)) true (bound 2 false true 100) = false ∧
    laneEdge (stamp (100 + 2 ^ 32 + 49)) true (bound 2 false true 100) = false ∧
    laneEdge (stamp 149) true (bound 2 false true 100) = false ∧ laneEdge (stamp 150) true (bound 2 false true 100) = true ∧
    laneEdge (stamp (100 + (2 ^ 32 - 1))) true (bound 2 false true 100) = true := by decide

/-- Slot 1, the last configured one, over a run with scans, decoder steps and a `CFG_ADD`. -/
theorem witness_RunsRefineTheLanes :
    Inv twoSlots ∧ (∃ t, runOn mixed twoSlots = .next t ∧ (t.count == 3) = true) ∧ 1 < twoSlots.count.toNat ∧
    (∀ e ∈ mixed, instrOf e ≠ some .cfgClear) := ⟨inv_twoSlots, exists_next (by decide), by decide, by decide⟩

/-- The four clauses: count 12; pins 30 and 29 about the end of the range; 0, 1 and 25 reserved; count 11 and 0 free. -/
theorem witness_CfgAddBindsOrRejects :
    full.count.toNat = 12 ∧ ¬ (start.params.pinMin ≤ (30 : Pin).toNat ∧ (30 : Pin).toNat ≤ start.params.pinMax) ∧
    (start.params.pinMin ≤ (29 : Pin).toNat ∧ (29 : Pin).toNat ≤ start.params.pinMax) ∧
    ((25 : Pin) ∈ start.params.ledPins ∧ (29 : Pin) ∉ start.params.ledPins) ∧
    gives (exec (.cfgAdd 29) { full with count := 11 }) (fun t => t.count == 12 && t.slots[11] == bound 29 false false 0) =
      true := by decide

theorem witness_ReadSlotAnswersTheRecord :
    12 ≤ (12 : Arg).toNat ∧ (11 : Fin 12).val = (11 : Arg).toNat ∧ start.slots[11] = Slot.unconfigured := by decide

theorem witness_ReadSlotTsAnswersTheTimer :
    12 ≤ (255 : Arg).toNat ∧ (0 : Fin 12).val = (0 : Arg).toNat ∧ start.slots[0] = Slot.unconfigured := by decide

theorem witness_ReadStatusAnswersCountAndCapacity : full.count.toNat ≤ 12 ∧ full.count.toNat = 12 := by decide

theorem witness_EveryStepKeepsTheSlotInvariant :
    SlotPrefix (placeInput (cmd quiet 0x60000000) full) ∧
    ∃ t, step (placeInput (cmd quiet 0x60000000) full) = .next t ∧ (t.count == 0) = true :=
  ⟨inv_full.slots, exists_next (by decide)⟩

theorem witness_FullArrayRejectsEveryPin :
    full.count.toNat = 12 ∧ (∃ t, runOn mixed full = .next t ∧ (t.count == 12) = true) ∧
    (∀ e ∈ mixed, instrOf e ≠ some .cfgClear) := ⟨by decide, exists_next (by decide), by decide⟩

/-- A decoder step, and commands that write each of the registers the clauses speak of. -/
theorem witness_EachAgentWritesOnlyItsRegisters :
    (∃ t, stepOn ⟨.decoder, at' false true [] 0⟩ (dec 0 3 10 0) = .next t ∧ (t.clicks == 1) = true) ∧
    (∃ t, stepOn (cmd quiet 0x20000000) (dec 0 3 10 5) = .next t ∧ (t.clicks != (dec 0 3 10 5).clicks) = true) ∧
    (∃ t, stepOn (cmd quiet 0x30000000) (dec 0 3 10 5) = .next t ∧ (t.position != (dec 0 3 10 5).position) = true) ∧
    (∃ t, stepOn (cmd quiet 0x70000002) start = .next t ∧ (t.slots != start.slots && t.count != start.count) = true) :=
  ⟨exists_next (by decide), exists_next (by decide), exists_next (by decide), exists_next (by decide)⟩

theorem witness_DecoderStepsCommuteWithSlotCommands :
    refusalOf full = none ∧ Instr.readStatus ∈ [Instr.nop, .cfgClear, .scan, .readStatus] ∧
    ∃ p, Instr.cfgAdd 2 = .cfgAdd p ∨ Instr.cfgAdd 2 = .readSlot p ∨ Instr.cfgAdd 2 = .readSlotTs p :=
  ⟨by decide, by decide, 2, .inl rfl⟩

/-- Positions 0 and 99 and an absent field on one side, -1, 100 and a value that is no integer on the other. -/
theorem witness_ResetThenPingReportsThePosition :
    refusalOf (dec 1 (-3) 42 7) = none ∧ ((0 : Int) ≤ 0 ∧ (0 : Int) < 100) ∧ ((0 : Int) ≤ 99 ∧ (99 : Int) < 100) ∧
    ¬ ((0 : Int) ≤ -1 ∧ (-1 : Int) < 100) ∧ ¬ ((0 : Int) ≤ 100 ∧ (100 : Int) < 100) ∧
    expand start.params (.reset (some (.integer 99))) = [.resetPos 99] ∧ expand start.params (.reset none) = [.resetPos 0] ∧
    expand start.params (.reset (some .notInteger)) = [] := by decide

/-- The commands of a `buttons` list with decoder steps between them. -/
theorem witness_ButtonsReportsTheBoundCount :
    refusalOf full = none ∧
    commandsOf (edges quiet (turns.take 2) ++ [cmd quiet 0x60000000, cmd quiet 0x70000002] ++ edges quiet (turns.drop 2) ++
        [cmd quiet 0x70000064, cmd quiet 0xB0000000]) =
      (expand full.params (.buttons [.integer 2, .notInteger, .integer 100, .integer 256])).map encode := by decide

theorem witness_TestModeBindsTheSixPins :
    refusalOf full = none ∧
    commandsOf (edges quiet (turns.take 2) ++ (expand full.params .test).map (commandInput quiet)) =
      (expand full.params .test).map encode := by decide

theorem witness_ButtonMessagesAreTheEdges :
    ∃ t, exec .scan twoSlots = .next t ∧
      (buttonMessages (fun i => twoSlots.slots[i].pin) (answer t) == [.button 2 true]) = true := exists_next (by decide)

end Sys2Proof.Tests
end

/-!
PROOFS. 00_scope.md: which instantiations run (R8), and what the response codes mean (R14).
-/

namespace Sys2Proof.Machine

/-! ## Legal instantiations (R8, D21) -/

/-- Every port word is performed: an instruction or `IGNORED`, never a refusal (60_exceptions.md R260). -/
theorem perform_next (e : StepInput) (s : State) : ∃ t, perform e s = .next t := by
  unfold perform
  split
  · next i _ =>
    obtain ⟨t, ht, _⟩ := exec_effect i (setInputs e.inputs s)
    exact ⟨t, ht⟩
  · exact ⟨_, rfl⟩

/-- The refusals of a step are those of its state. -/
theorem stepOn_refused_iff (e : StepInput) (s : State) (r : Refusal) :
    stepOn e s = .refused r ↔ refusalOf s = some r := by
  obtain ⟨t, ht⟩ := perform_next e s
  cases h : refusalOf s with
  | some q => simp [stepOn, h]
  | none => simp [stepOn, h, ht]

/-- Taking a step input touches nothing the refusals look at. -/
@[simp] theorem refusalOf_nextInput (s : State) : refusalOf (nextInput s).2 = refusalOf s := by
  unfold nextInput
  split <;> rfl

theorem step_refused_iff (s : State) (r : Refusal) : step s = .refused r ↔ refusalOf s = some r := by
  rw [step, stepOn_refused_iff, refusalOf_nextInput]

/-- An illegal instantiation is refused by that name whatever the registers hold, a legal one never by it. -/
theorem refusalOf_eq_illegalInstantiation (s : State) :
    refusalOf s = some .illegalInstantiation ↔ ¬ s.params.legal = true := by
  unfold refusalOf
  split
  · simp [*]
  · split_ifs <;> simp_all

/-- The pins `CFG_ADD` binds, in the words of R201 and R205. -/
theorem acceptedPin_iff (P : Params) (p : Pin) :
    acceptedPin P p = true ↔ P.pinMin ≤ p.toNat ∧ p.toNat ≤ P.pinMax ∧ p ≠ 0 ∧ p ≠ 1 ∧ p ∉ P.ledPins := by
  simp [acceptedPin, validPin, reservedPin, and_assoc]

/-- The constraints of R8 on an instantiation, one by one. -/
theorem params_legal_iff (P : Params) :
    P.legal = true ↔
      P.pinMin ≤ 2 ∧ 3 ≤ P.pinMax ∧ P.pinMax ≤ 99 ∧ (P.ledPins.length = 1 ∨ P.ledPins.length = 3) ∧ P.ledPins.Nodup ∧
        (2 : Pin) ∉ P.ledPins ∧ (3 : Pin) ∉ P.ledPins ∧ P.testPins.length = 6 ∧
        ∀ p ∈ P.testPins, acceptedPin P p = true := by
  simp [Params.legal, Params.rangeLegal, Params.ledCountLegal, Params.ledPinsLegal, Params.testCountLegal,
    Params.testPinsLegal, and_assoc]

/-- Settles O6: a step's refusals are its state's, and the first of them looks at the instantiation alone. -/
theorem onlyLegalInstantiationsRun : Obligations.OnlyLegalInstantiationsRun := by
  intro s
  rw [step_refused_iff, refusalOf_eq_illegalInstantiation, params_legal_iff]
  simp only [acceptedPin_iff]

/-! ## Response codes (R14) -/

/-- The checks of `CFG_ADD` refuse a pin exactly when the array is full or the pin is not accepted (R203). -/
theorem bindRefusal_eq_none (P : Params) (count : BitVec 4) (p : Pin) :
    bindRefusal P count p = none ↔ ¬ (count.toNat = 12 ∨ acceptedPin P p = false) := by
  rcases bindRefusal_cases P count p with ⟨hc, h⟩ | ⟨hc, hv, h⟩ | ⟨hc, hv, hr, h⟩ | ⟨hc, hv, hr, h⟩ <;>
    simp [acceptedPin, *]

/-- No command word is a decoder step (30_encoding.md R81, R83). -/
theorem commandOf_ne_qdecEdge (op : BitVec 4) (arg : Arg) (a b : Bool) : commandOf op arg ≠ some (.qdecEdge a b) := by
  unfold commandOf
  split <;> simp

theorem decode_command_ne_qdecEdge {w : Word} {i : Instr} (h : decode (.command w) = .ok i) (a b : Bool) :
    i ≠ .qdecEdge a b := by
  rintro rfl
  simp only [decode, decodeCommand] at h
  split at h
  · simp at h
  · next j hj =>
    split_ifs at h
    injection h with h
    exact commandOf_ne_qdecEdge _ _ a b (h ▸ hj)

/-- Which response a command answers: `IGNORED` outside its domain, `REJECTED` for a `CFG_ADD` whose checks refuse the pin,
`OK` otherwise (R14, 30_encoding.md R82). -/
theorem exec_resp_cases {i : Instr} {s t : State} (hi : ∀ a b, i ≠ .qdecEdge a b) (h : exec i s = .next t) :
    (t.resp = .ignored ∧ i.inDomain = false ∧ ∀ p, i ≠ .cfgAdd p) ∨
    (t.resp = .rejected ∧ i.inDomain = true ∧ ∃ p, i = .cfgAdd p ∧ bindRefusal s.params s.count p ≠ none) ∨
    (t.resp = .ok ∧ i.inDomain = true ∧ ∀ p, i = .cfgAdd p → bindRefusal s.params s.count p = none) := by
  cases i with
  | resetPos p =>
    rcases Nat.lt_or_ge p.toNat 100 with hp | hp
    · simp only [exec, execResetPos, positionArg_of_lt hp] at h
      cases h
      exact .inr (.inr ⟨rfl, by simpa [Instr.inDomain] using hp, nofun⟩)
    · simp only [exec, execResetPos, positionArg_of_ge hp] at h
      cases h
      exact .inl ⟨rfl, by simpa [Instr.inDomain] using hp, nofun⟩
  | cfgAdd p =>
    cases hb : bindRefusal s.params s.count p with
    | some reason =>
      simp only [exec, execCfgAdd, hb] at h
      cases h
      exact .inr (.inl ⟨rfl, rfl, p, rfl, by simp [hb]⟩)
    | none =>
      simp only [exec, execCfgAdd, hb] at h
      cases h
      exact .inr (.inr ⟨rfl, rfl, fun q hq => by cases hq; exact hb⟩)
  | readSlot k =>
    rcases Nat.lt_or_ge k.toNat 12 with hk | hk
    · simp only [exec, execReadSlot, slotArg_of_lt hk] at h
      cases h
      exact .inr (.inr ⟨rfl, by simpa [Instr.inDomain] using hk, nofun⟩)
    · simp only [exec, execReadSlot, slotArg_of_ge hk] at h
      cases h
      exact .inl ⟨rfl, by simpa [Instr.inDomain] using hk, nofun⟩
  | readSlotTs k =>
    rcases Nat.lt_or_ge k.toNat 12 with hk | hk
    · simp only [exec, execReadSlotTs, slotArg_of_lt hk] at h
      cases h
      exact .inr (.inr ⟨rfl, by simpa [Instr.inDomain] using hk, nofun⟩)
    · simp only [exec, execReadSlotTs, slotArg_of_ge hk] at h
      cases h
      exact .inl ⟨rfl, by simpa [Instr.inDomain] using hk, nofun⟩
  | qdecEdge a b => exact absurd rfl (hi a b)
  | _ =>
    cases h
    exact .inr (.inr ⟨rfl, rfl, nofun⟩)

/-- `REJECTED` is a `CFG_ADD` of a pin its checks refuse (R14, R203). -/
theorem exec_resp_eq_rejected {i : Instr} {s t : State} (hi : ∀ a b, i ≠ .qdecEdge a b) (h : exec i s = .next t) :
    t.resp = .rejected ↔ ∃ p, i = .cfgAdd p ∧ bindRefusal s.params s.count p ≠ none := by
  rcases exec_resp_cases hi h with ⟨hr, _, hp⟩ | ⟨hr, _, hp⟩ | ⟨hr, _, hp⟩
  · simp [hr, hp]
  · simp only [hr, hp]
  · simp only [hr, reduceCtorEq, false_iff]
    rintro ⟨p, rfl, hb⟩
    exact hb (hp p rfl)

/-- `IGNORED` is a command outside its domain (R14, 30_encoding.md R82). -/
theorem exec_resp_eq_ignored {i : Instr} {s t : State} (hi : ∀ a b, i ≠ .qdecEdge a b) (h : exec i s = .next t) :
    t.resp = .ignored ↔ i.inDomain = false := by
  rcases exec_resp_cases hi h with ⟨hr, hd, _⟩ | ⟨hr, hd, _⟩ | ⟨hr, hd, _⟩ <;> simp [hr, hd]

/-- A command that does not answer `OK` writes `resp` and `result` only: each of its other effects ends in `OK`. -/
theorem exec_frame_of_resp_ne_ok {i : Instr} {s t : State} (hi : ∀ a b, i ≠ .qdecEdge a b) (h : exec i s = .next t)
    (hr : t.resp ≠ .ok) : t = respond t.resp t.result s := by
  cases exec_inv h with
  | answer c w => rfl
  | edge a b hab => exact absurd hab (hi a b)
  | _ => exact absurd rfl hr

theorem resp_code_ne_three (r : Resp) : r.code ≠ 3 := by
  cases r <;> decide

/-- Settles O48: a word of no command is ignored; a command answers as `exec_resp_cases` says. -/
theorem responseCodesMeanWhatTheySay : Obligations.ResponseCodesMeanWhatTheySay := by
  intro w inp s
  cases hd : decode (.command w) with
  | error err =>
    refine ⟨ignore (setInputs inp s), by simp [perform, portWord, hd], resp_code_ne_three _, fun _ => rfl, ?_, ?_⟩ <;>
      simp [ignore]
  | ok i =>
    have hi := decode_command_ne_qdecEdge hd
    obtain ⟨t, ht, _⟩ := exec_effect i (setInputs inp s)
    have hrejected := exec_resp_eq_rejected hi ht
    simp only [ne_eq, bindRefusal_eq_none, not_not, setInputs_params, setInputs_count] at hrejected
    refine ⟨t, by simpa [perform, portWord, hd] using ht, resp_code_ne_three _, exec_frame_of_resp_ne_ok hi ht, ?_, ?_⟩
    · simpa using hrejected
    · simpa using exec_resp_eq_ignored hi ht

end Sys2Proof.Machine

/-!
PROOFS. 10_state.md: what a step and a run do to the registers (R24, R25, R34), the invariant of reachable states (R26, R28,
R30), and the timestamp of a lane at rest (R31).
-/

namespace Sys2Proof.Machine

/-! ## Reset release (R24, 70_reset_and_hazards.md R290) -/

/-- Every slot is unconfigured at release. -/
@[simp] theorem atRelease_getElem (P : Params) (inp : Inputs) (i : Fin 12) :
    (State.atRelease P inp).slots[i] = Slot.unconfigured := by
  simp [State.atRelease]

/-- Settles O11: the registers are read off `State.atRelease`. -/
theorem registersAtReset : Obligations.RegistersAtReset := by
  refine ⟨fun P inp => ⟨rfl, rfl, rfl, rfl, rfl, rfl, fun i => ?_, rfl⟩, Config.exampleParams, Config.resetInputs, rfl⟩
  rw [atRelease_getElem]
  exact ⟨rfl, rfl, rfl, rfl, rfl⟩

/-! ## The step on its input (R23, 30_encoding.md R84) -/

/-- A word that decodes is performed as its instruction. -/
theorem perform_of_decode_ok {e : StepInput} {i : Instr} (h : decode (portWord e) = .ok i) (s : State) :
    perform e s = exec i (setInputs e.inputs s) := by
  simp [perform, h]

/-- A word of no command is ignored. -/
theorem perform_of_decode_error {e : StepInput} {err : DecodeError} (h : decode (portWord e) = .error err) (s : State) :
    perform e s = .next (ignore (setInputs e.inputs s)) := by
  simp [perform, h]

/-- Settles O5: either source of the step input leads to `stepOn`, whose two branches are the refusal and `perform`. -/
theorem stepRunsTheDecodedInstruction : Obligations.StepRunsTheDecodedInstruction := by
  intro s e rest hinput
  obtain ⟨hstep, hrest⟩ : step s = stepOn e rest ∧ refusalOf rest = refusalOf s := by
    rcases hinput with ⟨es, hp, rfl⟩ | ⟨hp, rfl, rfl⟩
    · exact ⟨step_of_pending hp, rfl⟩
    · exact ⟨step_of_empty hp, rfl⟩
  refine ⟨fun r hr => (step_refused_iff s r).2 hr, fun hnone => ?_⟩
  rw [hstep, stepOn_of_admitted (hrest.trans hnone)]
  exact ⟨fun i hd => perform_of_decode_ok hd rest, fun err hd => perform_of_decode_error hd rest⟩

/-- Decoding undoes encoding (30_encoding.md R80, R81). -/
theorem decode_encode (i : Instr) : decode (encode i) = .ok i := by
  cases i <;> simp [encode, decode, decodeCommand, commandOf, takesArg]

/-- Every instruction but the decoder step has a command word (30_encoding.md R81, R83). -/
theorem encode_eq_command {i : Instr} (hi : ∀ a b, i ≠ .qdecEdge a b) : ∃ w, encode i = .command w := by
  cases i with
  | qdecEdge a b => exact absurd rfl (hi a b)
  | _ => exact ⟨_, rfl⟩

/-- A decoder step is the decoder's on the sample of its own levels (R110). -/
theorem perform_decoder (inp : Inputs) (s : State) :
    perform ⟨.decoder, inp⟩ s = .next (decoderStep (encoderCode inp.encA inp.encB) (setInputs inp s)) := by
  simp [perform, portWord, decode, exec, execQdecEdge]

/-- The command step of an instruction runs it on its own levels. -/
theorem perform_commandInput {i : Instr} (hi : ∀ a b, i ≠ .qdecEdge a b) (inp : Inputs) (s : State) :
    perform (commandInput inp i) s = exec i (setInputs inp s) := by
  obtain ⟨w, hw⟩ := encode_eq_command hi
  have hd : decode (.command w) = .ok i := hw ▸ decode_encode i
  simpa [commandInput, hw] using perform_of_decode_ok (e := ⟨.hostPort w, inp⟩) hd s

/-! ## What a step can do -/

/-- Whatever a step input brings, the step has one of the effects; an ignored word only answers (R84). -/
theorem stepOn_effect {e : StepInput} {s t : State} (h : stepOn e s = .next t) :
    ∃ i, Effect i (setInputs e.inputs s) t := by
  obtain ⟨_, ⟨i, _, hx⟩ | ⟨_, _, rfl⟩⟩ := stepOn_next h
  · exact ⟨i, exec_inv hx⟩
  · exact ⟨.nop, .answer .ignored 0⟩

/-- A step taken by the decoder. -/
theorem stepOn_decoder {inp : Inputs} {s t : State} (h : stepOn ⟨.decoder, inp⟩ s = .next t) :
    t = decoderStep (encoderCode inp.encA inp.encB) (setInputs inp s) := by
  rw [stepOn_of_admitted (stepOn_next h).1, perform_decoder] at h
  injection h with h
  exact h.symm

/-- A step taken by the host port: a command's effect, or `IGNORED`. -/
theorem stepOn_hostPort {w : Word} {inp : Inputs} {s t : State} (h : stepOn ⟨.hostPort w, inp⟩ s = .next t) :
    (∃ i, instrOf ⟨.hostPort w, inp⟩ = some i ∧ (∀ a b, i ≠ .qdecEdge a b) ∧ Effect i (setInputs inp s) t) ∨
    t = ignore (setInputs inp s) := by
  obtain ⟨_, ⟨i, hd, hx⟩ | ⟨_, _, ht⟩⟩ := stepOn_next h
  · exact .inl ⟨i, by simp [instrOf, hd, Except.toOption], decode_command_ne_qdecEdge hd, exec_inv hx⟩
  · exact .inr ht

/-! ## Who writes what (R24, R34, R35) -/

/-- No effect touches the parameters, the inputs to come or the levels on the ports (R35). -/
theorem Effect.model_frame {i : Instr} {s t : State} (h : Effect i s t) :
    t.params = s.params ∧ t.pending = s.pending ∧ t.draws = s.draws ∧ t.inputs = s.inputs := by
  cases h <;> exact ⟨rfl, rfl, rfl, rfl⟩

/-- Which registers each command writes: every register outside these lists stays (R24). -/
theorem Effect.command_writes {i : Instr} {s t : State} (h : Effect i s t) (hi : ∀ a b, i ≠ .qdecEdge a b) :
    t.prev = s.prev ∧
    (t.slots ≠ s.slots → i = .cfgClear ∨ i = .scan ∨ ∃ p, i = .cfgAdd p) ∧
    (t.count ≠ s.count → i = .cfgClear ∨ ∃ p, i = .cfgAdd p) ∧
    (t.clicks ≠ s.clicks → i = .drain ∨ ∃ p, i = .resetPos p) ∧
    (t.pulses ≠ s.pulses ∨ t.position ≠ s.position → ∃ p, i = .resetPos p) := by
  cases h with
  | answer c w => simp
  | edge a b h => exact absurd h (hi a b)
  | drain h | clear h | scan h => simp [h]
  | position p h | bind p h => simp [h]

/-- Settles O49: a decoder step by `decoderStep_frame`, a command by `Effect.command_writes`, an ignored word writes the
response alone. -/
theorem eachAgentWritesOnlyItsRegisters : Obligations.EachAgentWritesOnlyItsRegisters := by
  rintro ⟨agent, inp⟩ s t h
  have hmodel : t.params = s.params ∧ t.pending = s.pending ∧ t.draws = s.draws := by
    obtain ⟨i, he⟩ := stepOn_effect h
    obtain ⟨hparams, hpending, hdraws, _⟩ := he.model_frame
    exact ⟨hparams, hpending, hdraws⟩
  refine ⟨?_, ?_, hmodel⟩
  · rintro rfl
    obtain ⟨hcount, hslots, hresp, hresult, _⟩ :=
      decoderStep_frame (encoderCode inp.encA inp.encB) (setInputs inp s)
    rw [stepOn_decoder h]
    exact ⟨hslots, hcount, hresp, hresult⟩
  · intro hagent
    cases agent with
    | decoder => exact absurd rfl hagent
    | hostPort w =>
      rcases stepOn_hostPort h with ⟨i, hi, hne, he⟩ | rfl
      · simpa [hi] using he.command_writes hne
      · simp

/-! ## `prev` over a run (R25) -/

/-- A run with a first step that answers `u` goes on from `u`. -/
theorem runOn_cons_of_next {e : StepInput} {s u : State} (h : stepOn e s = .next u) (es : List StepInput) :
    runOn (e :: es) s = runOn es u := by
  simp [runOn, h]

/-- A completed run takes its first step and completes from there. -/
theorem runOn_cons_next {e : StepInput} {es : List StepInput} {s t : State} (h : runOn (e :: es) s = .next t) :
    ∃ u, stepOn e s = .next u ∧ runOn es u = .next t := by
  rw [runOn] at h
  split at h
  · next u hu => exact ⟨u, hu, h⟩
  · simp at h
  · simp at h

/-- The decoder writes its sample to `prev`, the host port leaves `prev` as it is. -/
theorem lastCode_of_stepOn {e : StepInput} {s u : State} (h : stepOn e s = .next u) (es : List StepInput) :
    lastCode s.prev (e :: es) = lastCode u.prev es := by
  obtain ⟨agent, inp⟩ := e
  cases agent with
  | decoder => rw [stepOn_decoder h]; rfl
  | hostPort w =>
    have hprev : u.prev = s.prev := by
      rcases stepOn_hostPort h with ⟨_, _, hne, he⟩ | rfl
      · exact (he.command_writes hne).1
      · rfl
    rw [hprev]; rfl

/-- Settles O20, by induction on the run. -/
theorem prevIsTheLastDecoderSample : Obligations.PrevIsTheLastDecoderSample := by
  intro es
  induction es with
  | nil =>
    intro s t h
    cases h
    rfl
  | cons e es ih =>
    intro s t h
    obtain ⟨u, hu, ht⟩ := runOn_cons_next h
    rw [lastCode_of_stepOn hu, ih u t ht]

/-! ## The registers in range (R24, R26, R28) -/

/-- The states the model gives steps are those of a legal instantiation with every register in range. -/
theorem refusalOf_eq_none_iff (s : State) : refusalOf s = none ↔ s.params.legal = true ∧ RegistersInRange s := by
  rw [refusalOf_eq_none]
  exact ⟨fun ⟨hl, hq, hp, hc⟩ => ⟨hl, hq, hp, hc⟩, fun ⟨hl, hr⟩ => ⟨hl, hr.position, hr.pulses, hr.count⟩⟩

/-- The decoder stores an accumulator above -4 and a position on the ring (R26, R28; 40_qdec_fsm.md R117, R118). -/
theorem decoderStep_keeps_range {s : State} (h : RegistersInRange s) (cur : Code) :
    RegistersInRange (decoderStep cur s) where
  position := advancePosition_lt _ h.position
  pulses   := (settledPulses_spec (movedPulses_bound s.params.invert s.prev cur h.pulses)).2
  count    := h.count

/-- `count` in its range has room for one more (R24). -/
theorem count_add_one_toNat {c : BitVec 4} (hle : c.toNat ≤ 12) : (c + 1).toNat = c.toNat + 1 := by
  have hone : (1 : BitVec 4).toNat = 1 := rfl
  rw [BitVec.toNat_add]
  omega

/-- Every effect keeps the registers in range. -/
theorem Effect.keeps_range {i : Instr} {s t : State} (h : Effect i s t) (hr : RegistersInRange s) :
    RegistersInRange t := by
  cases h with
  | edge a b => exact decoderStep_keeps_range hr _
  | position p _ hp => exact ⟨by simp; omega, by simp, hr.count⟩
  | clear => exact ⟨hr.position, hr.pulses, by simp⟩
  | bind p _ hc =>
    have hcount := count_add_one_toNat hr.count
    have hle := hr.count
    exact ⟨hr.position, hr.pulses, by simp only [respond_count, appendSlot_count]; omega⟩
  | answer | drain | scan => exact ⟨hr.position, hr.pulses, hr.count⟩

/-- The levels on the ports are no register. -/
theorem RegistersInRange.setInputs {s : State} (h : RegistersInRange s) (inp : Inputs) :
    RegistersInRange (setInputs inp s) :=
  ⟨h.position, h.pulses, h.count⟩

/-- A step from an admitted state leads to an admitted state. -/
theorem stepOn_keeps_admitted {e : StepInput} {s t : State} (h : stepOn e s = .next t) : refusalOf t = none := by
  obtain ⟨hlegal, hrange⟩ := (refusalOf_eq_none_iff s).1 (stepOn_next h).1
  obtain ⟨i, he⟩ := stepOn_effect h
  refine (refusalOf_eq_none_iff t).2 ⟨?_, he.keeps_range (hrange.setInputs e.inputs)⟩
  rw [he.model_frame.1]
  exact hlegal

/-! ## The slot invariant (R30) -/

/-- The slot invariant speaks of `slots` and `count` alone. -/
theorem SlotPrefix.congr {s t : State} (h : SlotPrefix s) (hs : t.slots = s.slots) (hc : t.count = s.count) :
    SlotPrefix t := by
  unfold SlotPrefix
  rw [hs, hc]
  exact h

/-- An array of unconfigured slots with `count` 0 meets the slot invariant. -/
theorem slotPrefix_of_unconfigured {s : State} (hs : ∀ i : Fin 12, s.slots[i] = Slot.unconfigured) (hc : s.count = 0) :
    SlotPrefix s := by
  intro i
  simp [hs, hc, Slot.unconfigured]

/-- A slot bound behind the configured ones leaves them first in the array (43_slot_config.md R203). -/
theorem SlotPrefix.appendSlot {s : State} (h : SlotPrefix s) {sl : Slot} (hcount : (s.count + 1).toNat = s.count.toNat + 1)
    (henabled : sl.enabled = true) (hpin : sl.pin ≠ Config.pinNone) : SlotPrefix (appendSlot sl s) := by
  intro i
  obtain ⟨hconfigured, hbound, hrest⟩ := h i
  rw [appendSlot_getElem, appendSlot_count, hcount]
  split
  · next heq => exact ⟨iff_of_true (by omega) henabled, iff_of_true henabled hpin, by omega⟩
  · next hne =>
    refine ⟨?_, hbound, fun hle => hrest (by omega)⟩
    rw [← hconfigured]
    omega

/-- An update that binds and unbinds nothing keeps the slot invariant. -/
theorem SlotPrefix.mapSlots {s : State} (h : SlotPrefix s) {f : Slot → Slot}
    (hf : ∀ sl, (f sl).pin = sl.pin ∧ (f sl).enabled = sl.enabled) (hnone : f Slot.unconfigured = Slot.unconfigured) :
    SlotPrefix (mapSlots f s) := by
  intro i
  obtain ⟨hconfigured, hbound, hrest⟩ := h i
  rw [mapSlots_getElem, (hf _).1, (hf _).2]
  exact ⟨hconfigured, hbound, fun hle => by rw [hrest hle, hnone]⟩

/-- A scan passes over an unconfigured slot (42_debounce_scan.md R174). -/
theorem scanSlot_unconfigured (inp : Inputs) : scanSlot inp Slot.unconfigured = Slot.unconfigured := by
  simp [scanSlot, Slot.unconfigured]

/-- `PIN_NONE` is out of every legal pin range, so it is never bound (00_scope.md R8). -/
theorem ne_pinNone_of_accepted {P : Params} {p : Pin} (hlegal : P.legal = true) (hp : acceptedPin P p = true) :
    p ≠ Config.pinNone := by
  rintro rfl
  obtain ⟨_, _, hmax, _⟩ := (params_legal_iff P).1 hlegal
  obtain ⟨_, hle, _⟩ := (acceptedPin_iff P _).1 hp
  have : (Config.pinNone : Pin).toNat = 255 := rfl
  omega

/-- Every effect keeps the slot invariant: only `CFG_CLEAR`, `CFG_ADD` and `SCAN` write slots (R30). -/
theorem Effect.keeps_slotPrefix {i : Instr} {s t : State} (h : Effect i s t) (hlegal : s.params.legal = true)
    (hcount : s.count.toNat ≤ 12) (hs : SlotPrefix s) : SlotPrefix t := by
  cases h with
  | clear => exact slotPrefix_of_unconfigured (clearSlots_getElem s) rfl
  | bind p _ _ hp =>
    exact (hs.appendSlot (sl := boundSlot p s.inputs.now) (count_add_one_toNat hcount) rfl
      (ne_pinNone_of_accepted hlegal hp)).congr rfl rfl
  | scan => exact (hs.mapSlots (scanSlot_keeps s.inputs) (scanSlot_unconfigured s.inputs)).congr rfl rfl
  | answer | drain | position | edge => exact hs.congr rfl rfl

/-- Taking a step input is no part of the slot invariant. -/
theorem SlotPrefix.nextInput {s : State} (h : SlotPrefix s) : SlotPrefix (nextInput s).2 := by
  unfold Machine.nextInput
  split <;> exact h

/-- The slot invariant holds at release. -/
theorem atRelease_slotPrefix (P : Params) (inp : Inputs) : SlotPrefix (State.atRelease P inp) :=
  slotPrefix_of_unconfigured (atRelease_getElem P inp) rfl

/-- Settles O46: the step's refusals leave the legal instantiation and the count in range that `Effect.keeps_slotPrefix`
needs. -/
theorem everyStepKeepsTheSlotInvariant : Obligations.EveryStepKeepsTheSlotInvariant := by
  refine ⟨atRelease_slotPrefix, fun s t hs h => ?_⟩
  obtain ⟨hlegal, hrange⟩ := (refusalOf_eq_none_iff _).1 (stepOn_next h).1
  obtain ⟨i, he⟩ := stepOn_effect h
  exact he.keeps_slotPrefix hlegal hrange.count hs.nextInput

/-! ## The invariant of reachable states -/

/-- The accepted pins speak of `slots` and `params` alone. -/
theorem PinsAccepted.congr {s t : State} (h : PinsAccepted s) (hs : t.slots = s.slots) (hp : t.params = s.params) :
    PinsAccepted t := by
  unfold PinsAccepted
  rw [hs, hp]
  exact h

/-- No pin is bound where every slot is unconfigured. -/
theorem pinsAccepted_of_unconfigured {s : State} (hs : ∀ i : Fin 12, s.slots[i] = Slot.unconfigured) :
    PinsAccepted s := by
  intro i
  simp [hs, Slot.unconfigured]

/-- Binding an accepted pin keeps the bound pins accepted (43_slot_config.md R203). -/
theorem PinsAccepted.appendSlot {s : State} (h : PinsAccepted s) {sl : Slot} (hp : acceptedPin s.params sl.pin = true) :
    PinsAccepted (appendSlot sl s) := by
  intro i
  rw [appendSlot_getElem, appendSlot_params]
  split
  · exact fun _ => hp
  · exact h i

/-- An update that binds nothing keeps the bound pins accepted. -/
theorem PinsAccepted.mapSlots {s : State} (h : PinsAccepted s) {f : Slot → Slot}
    (hf : ∀ sl, (f sl).pin = sl.pin ∧ (f sl).enabled = sl.enabled) : PinsAccepted (mapSlots f s) := by
  intro i
  rw [mapSlots_getElem, (hf _).1, (hf _).2]
  exact h i

/-- Every effect keeps the bound pins accepted: only `CFG_ADD` binds one, and it checks it (R203). -/
theorem Effect.keeps_pinsAccepted {i : Instr} {s t : State} (h : Effect i s t) (hs : PinsAccepted s) :
    PinsAccepted t := by
  cases h with
  | clear => exact pinsAccepted_of_unconfigured (clearSlots_getElem s)
  | bind p _ _ hp => exact (hs.appendSlot (sl := boundSlot p s.inputs.now) hp).congr rfl rfl
  | scan => exact (hs.mapSlots (scanSlot_keeps s.inputs)).congr rfl rfl
  | answer | drain | position | edge => exact hs.congr rfl rfl

/-- Every effect keeps the invariant, part by part. -/
theorem Effect.keeps_inv {i : Instr} {s t : State} (h : Effect i s t) (hs : Inv s) : Inv t where
  legal := by rw [h.model_frame.1]; exact hs.legal
  range := h.keeps_range hs.range
  slots := h.keeps_slotPrefix hs.legal hs.range.count hs.slots
  pins  := h.keeps_pinsAccepted hs.pins

/-- The levels on the ports are no part of the invariant. -/
theorem Inv.setInputs {s : State} (h : Inv s) (inp : Inputs) : Inv (setInputs inp s) :=
  ⟨h.legal, h.range.setInputs inp, h.slots, h.pins⟩

/-- A step on any step input keeps the invariant. -/
theorem stepOn_keeps_inv {e : StepInput} {s t : State} (h : stepOn e s = .next t) (hs : Inv s) : Inv t := by
  obtain ⟨i, he⟩ := stepOn_effect h
  exact he.keeps_inv (hs.setInputs e.inputs)

/-- Taking a step input is no part of the invariant. -/
theorem Inv.nextInput {s : State} (h : Inv s) : Inv (nextInput s).2 := by
  unfold Machine.nextInput
  split <;> exact ⟨h.legal, ⟨h.range.position, h.range.pulses, h.range.count⟩, h.slots, h.pins⟩

/-- Settles O9: taking the input keeps the invariant, and so does every effect. -/
theorem everyStepKeepsTheInvariant : Obligations.EveryStepKeepsTheInvariant :=
  fun _ _ hs h => stepOn_keeps_inv h hs.nextInput

/-- The invariant holds at release of every legal instantiation. -/
theorem inv_atRelease {P : Params} (hlegal : P.legal = true) (inp : Inputs) : Inv (State.atRelease P inp) where
  legal := hlegal
  range := ⟨by simp [State.atRelease], by simp [State.atRelease], by simp [State.atRelease]⟩
  slots := atRelease_slotPrefix P inp
  pins  := pinsAccepted_of_unconfigured (atRelease_getElem P inp)

/-- Settles O10: `State.reset` is a release of the example instantiation, which is legal. -/
theorem invariantHoldsAtReset : Obligations.InvariantHoldsAtReset :=
  ⟨fun _ inp hlegal => inv_atRelease hlegal inp, inv_atRelease (by decide) Config.resetInputs⟩

/-! ## Decoder steps and slot commands commute (R34, 20_memory.md R61) -/

/-- The commands that neither read nor write a decoder register. -/
def isSlotCommand : Instr → Bool
  | .nop | .cfgClear | .cfgAdd _ | .scan | .readSlot _ | .readSlotTs _ | .readStatus => true
  | .readPos | .drain | .resetPos _ | .readRaw | .readQdec | .qdecEdge _ _ => false

/-- A slot command does the same whatever the decoder registers hold. -/
theorem exec_setDecoder {i : Instr} (hi : isSlotCommand i = true) (c : Code) (p : BitVec 3) (q : BitVec 7)
    (k : BitVec 24) {s v : State} (h : exec i s = .next v) :
    exec i (setDecoder c p q k s) = .next (setDecoder c p q k v) := by
  cases i with
  | nop | cfgClear | scan | readStatus =>
    cases h
    rfl
  | cfgAdd pin =>
    simp only [exec, execCfgAdd, setDecoder_params, setDecoder_count] at h ⊢
    split at h <;> cases h <;> rfl
  | readSlot n =>
    simp only [exec, execReadSlot] at h ⊢
    split at h <;> cases h <;> rfl
  | readSlotTs n =>
    simp only [exec, execReadSlotTs] at h ⊢
    split at h <;> cases h <;> rfl
  | readPos | drain | resetPos | readRaw | readQdec | qdecEdge => simp [isSlotCommand] at hi

/-- A slot command leaves the decoder registers and the parameters as they are. -/
theorem slotCommand_frame {i : Instr} (hi : isSlotCommand i = true) {s v : State} (hv : exec i s = .next v) :
    v.prev = s.prev ∧ v.pulses = s.pulses ∧ v.position = s.position ∧ v.clicks = s.clicks ∧ v.params = s.params := by
  cases exec_inv hv with
  | answer | clear | bind | scan => exact ⟨rfl, rfl, rfl, rfl, rfl⟩
  | drain h | position _ h | edge _ _ h => simp [h, isSlotCommand] at hi

/-- What the decoder writes depends on its own registers and the polarity alone (40_qdec_fsm.md R110). -/
theorem decoderStep_of_agree {s v : State} (cur : Code)
    (h : v.prev = s.prev ∧ v.pulses = s.pulses ∧ v.position = s.position ∧ v.clicks = s.clicks ∧ v.params = s.params) :
    decoderStep cur v = setDecoder cur (decoderStep cur s).pulses (decoderStep cur s).position
      (decoderStep cur s).clicks v := by
  obtain ⟨hprev, hpulses, hposition, hclicks, hparams⟩ := h
  simp [decoderStep, hprev, hpulses, hposition, hclicks, hparams]

/-- A run of two steps, each performed from the admitted state the one before it left. -/
theorem runOn_pair {e f : StepInput} {s u t : State} (hs : refusalOf s = none) (he : perform e s = .next u)
    (hf : perform f u = .next t) : runOn [e, f] s = .next t := by
  have he' : stepOn e s = .next u := (stepOn_of_admitted hs e).trans he
  have hf' : stepOn f u = .next t := (stepOn_of_admitted (stepOn_keeps_admitted he') f).trans hf
  rw [runOn_cons_of_next he', runOn_cons_of_next hf', runOn]

/-- Settles O50: with `v` what the slot command makes of `s`, both orders end in the decoder's writes on `v`. -/
theorem decoderStepsCommuteWithSlotCommands : Obligations.DecoderStepsCommuteWithSlotCommands := by
  intro s x y i hs hmem
  have hi : isSlotCommand i = true := by
    rcases hmem with hmem | ⟨p, rfl | rfl | rfl⟩
    · revert i; decide
    all_goals rfl
  have hne : ∀ a b, i ≠ .qdecEdge a b := by rintro a b rfl; simp [isSlotCommand] at hi
  obtain ⟨v, hv, _⟩ := exec_effect i (setInputs y s)
  have hcommand := exec_setDecoder hi (encoderCode x.encA x.encB)
  have hdecoder := decoderStep_of_agree (s := setInputs x s) (v := setInputs x v) (encoderCode x.encA x.encB)
    (by simpa using slotCommand_frame hi hv)
  refine ⟨_, _, runOn_pair hs (perform_decoder x s) ((perform_commandInput hne y _).trans (hcommand _ _ _ hv)),
    runOn_pair hs ((perform_commandInput hne y s).trans hv) (perform_decoder x v), ?_⟩
  rw [hdecoder]
  rfl

/-! ## The timestamp of a lane at rest (R31) -/

/-- The view is `Stable` exactly where `raw = stable` (R31). -/
theorem laneView_eq_stable_iff (sl : Slot) : laneView sl = .stable sl.stable ↔ sl.raw = sl.stable := by
  simp [laneView]

/-- A lane at rest makes no edge; it follows a changed reading and takes its time, or stays as it is (42_debounce_scan.md
R172, R173). -/
theorem laneSlot_at_rest {sl : Slot} (h : sl.raw = sl.stable) (t : Millis) (r : Bool) :
    laneEdge t r sl = false ∧ laneSlot t r sl = if r = sl.raw then sl else { sl with raw := r, ts := t } := by
  rcases laneSlot_cases t r sl with ⟨hr, hslot, hedge⟩ | ⟨hr, _, hslot, hedge⟩ | ⟨_, _, hne, _⟩
  · exact ⟨hedge, by rw [hslot, if_neg hr]⟩
  · exact ⟨hedge, by rw [hslot, if_pos hr]⟩
  · exact absurd h hne

/-- From a lane at rest, its edges and what R31 speaks of at the end do not depend on its timestamp: either no reading
changes, or the first change overwrites it. -/
theorem lane_at_rest_ts_irrelevant (xs : List (Millis × Bool)) {sl : Slot} (h : sl.raw = sl.stable) (ts : Millis) :
    laneEdges xs { sl with ts := ts } = laneEdges xs sl ∧
    (laneRun xs { sl with ts := ts } = laneRun xs sl ∨
      (laneRun xs sl).raw = (laneRun xs sl).stable ∧ laneRun xs { sl with ts := ts } = { laneRun xs sl with ts := ts }) := by
  induction xs with
  | nil => exact ⟨rfl, .inr ⟨h, rfl⟩⟩
  | cons x xs ih =>
    obtain ⟨t, r⟩ := x
    obtain ⟨hedge, hslot⟩ := laneSlot_at_rest h t r
    obtain ⟨hedge', hslot'⟩ := laneSlot_at_rest (sl := { sl with ts := ts }) h t r
    simp only [laneEdges, laneRun, hedge, hedge', hslot, hslot']
    by_cases hr : r = sl.raw
    · simpa [hr] using ih
    · simp [hr]

/-- Settles O35: the two lanes end equal, or both at rest, where the view hides the timestamp. -/
theorem timestampOfAStableSlotIsIrrelevant : Obligations.TimestampOfAStableSlotIsIrrelevant := by
  intro xs sl ts hview
  obtain ⟨hedges, heq | ⟨hrest, heq⟩⟩ := lane_at_rest_ts_irrelevant xs ((laneView_eq_stable_iff sl).1 hview) ts
  · exact ⟨hedges, by rw [heq], by rw [heq], by rw [heq]⟩
  · refine ⟨hedges, by rw [heq], by rw [heq], ?_⟩
    rw [heq, laneView, laneView, if_pos hrest, if_pos hrest]

end Sys2Proof.Machine

/-!
PROOFS. 20_memory.md: the commands of a run under every interleaving with decoder steps (R61), with the wire commands
`buttons` and `test` (44_host_protocol.md R233, R235); the placed inputs in order (R61, R62); the reading commands (R66).
-/

namespace Sys2Proof.Machine

/-! ## A run up to one of its steps -/

/-- The run on `es` from `s` answers `given` and comes to the admitted state `t`, with the inputs `rest` still to take. -/
structure RunsTo (es : List StepInput) (s : State) (given : List Answer) (rest : List StepInput) (t : State) : Prop where
  run      : runOn es s = runOn rest t
  answers  : answers es s = given ++ answers rest t
  admitted : refusalOf t = none

theorem RunsTo.refl (es : List StepInput) {s : State} (hs : refusalOf s = none) : RunsTo es s [] es s :=
  ⟨rfl, rfl, hs⟩

theorem RunsTo.trans {es fs gs : List StepInput} {s t u : State} {given more : List Answer}
    (h : RunsTo es s given fs t) (k : RunsTo fs t more gs u) : RunsTo es s (given ++ more) gs u :=
  ⟨h.run.trans k.run, by rw [h.answers, k.answers, List.append_assoc], k.admitted⟩

/-- A run with no inputs left has ended. -/
theorem RunsTo.finished {es : List StepInput} {s t : State} {given : List Answer} (h : RunsTo es s given [] t) :
    runOn es s = .next t ∧ Machine.answers es s = given :=
  ⟨h.run, by rw [h.answers]; exact List.append_nil given⟩

/-- The registers that slot configuration reads and writes, and the instantiation, are the same in both states. -/
structure SameSlots (s t : State) : Prop where
  slots  : t.slots = s.slots
  count  : t.count = s.count
  params : t.params = s.params

theorem SameSlots.refl (s : State) : SameSlots s s := ⟨rfl, rfl, rfl⟩

theorem SameSlots.trans {s t u : State} (h : SameSlots s t) (k : SameSlots t u) : SameSlots s u :=
  ⟨k.slots.trans h.slots, k.count.trans h.count, k.params.trans h.params⟩

/-! ## The commands of a run, whatever decoder steps fall between them (R61) -/

@[simp] theorem commandsOf_nil : commandsOf [] = [] := rfl

@[simp] theorem isCommand_decoder (inp : Inputs) : isCommand ⟨.decoder, inp⟩ = false := rfl

@[simp] theorem isCommand_hostPort (w : Word) (inp : Inputs) : isCommand ⟨.hostPort w, inp⟩ = true := rfl

/-- A decoder step is no command. -/
@[simp] theorem commandsOf_decoder (inp : Inputs) (es : List StepInput) :
    commandsOf (⟨.decoder, inp⟩ :: es) = commandsOf es := rfl

/-- A step of the host port is the command on `cmd`. -/
@[simp] theorem commandsOf_hostPort (w : Word) (inp : Inputs) (es : List StepInput) :
    commandsOf (⟨.hostPort w, inp⟩ :: es) = .command w :: commandsOf es := rfl

/-- A decoder step answers nothing and leaves the slots (R34). -/
theorem runsTo_decoder {s : State} (hs : refusalOf s = none) (inp : Inputs) (es : List StepInput) :
    ∃ u, RunsTo (⟨.decoder, inp⟩ :: es) s [] es u ∧ SameSlots s u := by
  have hstep := (stepOn_of_admitted hs ⟨.decoder, inp⟩).trans (perform_decoder inp s)
  obtain ⟨hcount, hslots, _, _, _, _, _, hparams⟩ :=
    decoderStep_frame (encoderCode inp.encA inp.encB) (setInputs inp s)
  exact ⟨_, ⟨runOn_cons_of_next hstep es, by simp [answers, answersOf, hstep], stepOn_keeps_admitted hstep⟩,
    hslots, hcount, hparams⟩

/-- A command step gives one answer, that of the instruction on the step's levels. -/
theorem runsTo_command {s : State} (hs : refusalOf s = none) {w : Word} {i : Instr} (hw : decode (.command w) = .ok i)
    (inp : Inputs) (es : List StepInput) :
    ∃ t, exec i (setInputs inp s) = .next t ∧ RunsTo (⟨.hostPort w, inp⟩ :: es) s [(t.resp, t.result)] es t := by
  obtain ⟨t, ht, _⟩ := exec_effect i (setInputs inp s)
  have hstep : stepOn ⟨.hostPort w, inp⟩ s = .next t :=
    (stepOn_of_admitted hs _).trans ((perform_of_decode_ok (e := ⟨.hostPort w, inp⟩) hw s).trans ht)
  exact ⟨t, ht, runOn_cons_of_next hstep es, by simp [answers, answersOf, hstep], stepOn_keeps_admitted hstep⟩

/-- A run without commands completes, answers nothing and leaves the slots. -/
theorem runsTo_end {es : List StepInput} {s : State} (hs : refusalOf s = none) (hes : commandsOf es = []) :
    ∃ t, RunsTo es s [] [] t ∧ SameSlots s t := by
  induction es generalizing s with
  | nil => exact ⟨s, .refl [] hs, .refl s⟩
  | cons e es ih =>
    obtain ⟨_ | w, inp⟩ := e
    · obtain ⟨u, hu, hsu⟩ := runsTo_decoder hs inp es
      obtain ⟨t, ht, hut⟩ := ih hu.admitted (by simpa using hes)
      exact ⟨t, hu.trans ht, hsu.trans hut⟩
    · simp at hes

/-- A run whose first command is `i` comes, over decoder steps that leave the slots, to a state `u` in which `i` runs. -/
theorem runsTo_first_command {es : List StepInput} {s : State} {i : Instr} {ws : List PortWord}
    (hs : refusalOf s = none) (hes : commandsOf es = encode i :: ws) :
    ∃ u t rest, SameSlots s u ∧ exec i u = .next t ∧ commandsOf rest = ws ∧
      RunsTo es s [(t.resp, t.result)] rest t := by
  induction es generalizing s with
  | nil => simp at hes
  | cons e es ih =>
    obtain ⟨_ | w, inp⟩ := e
    · obtain ⟨v, hv, hsv⟩ := runsTo_decoder hs inp es
      obtain ⟨u, t, rest, hvu, hexec, hrest, ht⟩ := ih hv.admitted (by simpa using hes)
      exact ⟨u, t, rest, hsv.trans hvu, hexec, hrest, hv.trans ht⟩
    · obtain ⟨hw, hws⟩ : PortWord.command w = encode i ∧ commandsOf es = ws := by simpa using hes
      obtain ⟨t, ht, hrun⟩ := runsTo_command hs (hw ▸ decode_encode i) inp es
      exact ⟨setInputs inp s, t, es, ⟨rfl, rfl, rfl⟩, ht, hws, hrun⟩

/-! ## The bound pins (43_slot_config.md R200, R203, R204) -/

theorem count_le_of_admitted {s : State} (hs : refusalOf s = none) : s.count.toNat ≤ 12 :=
  ((refusalOf_eq_none_iff s).1 hs).2.count

/-- The pins of the configured slots, in slot order. -/
def boundPins (s : State) : List Pin := (s.slots.toList.map (·.pin)).take s.count.toNat

/-- There are `count` of them. -/
theorem length_boundPins {s : State} (hs : s.count.toNat ≤ 12) : (boundPins s).length = s.count.toNat := by
  simpa [boundPins] using hs

theorem SameSlots.boundPins_eq {s t : State} (h : SameSlots s t) : boundPins t = boundPins s := by
  rw [boundPins, boundPins, h.slots, h.count]

@[simp] theorem boundPins_respond (c : Resp) (w : Word) (s : State) : boundPins (respond c w s) = boundPins s := rfl

@[simp] theorem boundPins_clearSlots (s : State) : boundPins (clearSlots s) = [] := by
  simp [boundPins]

/-- While a slot is free, a bound pin comes behind the others. -/
theorem boundPins_appendSlot {s : State} (h : s.count.toNat < 12) (sl : Slot) :
    boundPins (appendSlot sl s) = boundPins s ++ [sl.pin] := by
  rw [boundPins, boundPins, appendSlot_count, appendSlot_slots, count_add_one_toNat h.le, List.take_add_one]
  simp [List.map_set, List.take_set_of_le, h]

/-- The pins whose `CFG_ADD` was answered `OK`, as the host lists them (44_host_protocol.md R235). -/
def pinsAnsweredOk (pins : List Pin) (given : List Answer) : List Pin :=
  (pins.zip given).filterMap fun x => if x.2.1 = .ok then some x.1 else none

theorem pinsAnsweredOk_cons (p : Pin) (pins : List Pin) (a : Answer) (given : List Answer) :
    pinsAnsweredOk (p :: pins) (a :: given) = pinsAnsweredOk [p] [a] ++ pinsAnsweredOk pins given := by
  simp only [pinsAnsweredOk, List.zip_cons_cons, List.zip_nil_right, ← List.filterMap_append, List.singleton_append]

/-- A `CFG_ADD` binds its pin if it is accepted and a slot is free, and answers `OK` exactly then. -/
theorem boundPins_cfgAdd {s t : State} (hs : s.count.toNat ≤ 12) {p : Pin} (h : exec (.cfgAdd p) s = .next t) :
    boundPins t = (boundPins s ++ [p].filter (acceptedPin s.params)).take 12 ∧
    boundPins t = boundPins s ++ pinsAnsweredOk [p] [(t.resp, t.result)] := by
  have hlen := length_boundPins hs
  rw [exec, execCfgAdd] at h
  cases hb : bindRefusal s.params s.count p with
  | some reason =>
    rw [hb] at h
    cases h
    refine ⟨?_, by simp [pinsAnsweredOk]⟩
    have hrefused : s.count.toNat = 12 ∨ acceptedPin s.params p = false := by
      by_contra hfree
      rw [(bindRefusal_eq_none ..).2 hfree] at hb
      exact Option.some_ne_none _ hb.symm
    rcases hrefused with hfull | hp
    · rw [List.take_append_of_le_length (by omega), List.take_of_length_le (by omega), boundPins_respond]
    · simp [hp, List.take_of_length_le, hlen, hs]
  | none =>
    obtain ⟨hfull, hp⟩ : s.count.toNat ≠ 12 ∧ acceptedPin s.params p = true := by
      simpa using (bindRefusal_eq_none ..).1 hb
    have hfree : s.count.toNat < 12 := by omega
    rw [hb] at h
    cases h
    rw [boundPins_respond, boundPins_appendSlot hfree]
    refine ⟨?_, by simp [pinsAnsweredOk, boundSlot]⟩
    rw [List.take_of_length_le] <;> simp [hp, boundSlot, hlen, hfree]

/-- What a first cut at `k` drops is dropped by a second one as well. -/
theorem take_take_append {α : Type} (k : ℕ) (l m : List α) : (l.take k ++ m).take k = (l ++ m).take k := by
  rw [List.take_append, List.take_append, List.take_take, List.length_take, Nat.min_self]
  congr 2
  omega

/-- A list of `CFG_ADD`s among decoder steps binds its accepted pins in order while slots are free, and the pins answered
`OK` are those bound (R203, R204). -/
theorem runsTo_cfgAdds (pins : List Pin) {es : List StepInput} {s : State} {ws : List PortWord}
    (hs : refusalOf s = none) (hes : commandsOf es = (pins.map Instr.cfgAdd).map encode ++ ws) :
    ∃ given t rest, RunsTo es s given rest t ∧ commandsOf rest = ws ∧
      boundPins t = (boundPins s ++ pins.filter (acceptedPin s.params)).take 12 ∧
      boundPins t = boundPins s ++ pinsAnsweredOk pins given := by
  induction pins generalizing es s with
  | nil =>
    have hle := count_le_of_admitted hs
    have hlen := length_boundPins hle
    refine ⟨[], s, es, .refl es hs, hes, ?_, by simp [pinsAnsweredOk]⟩
    simp [List.take_of_length_le, hlen, hle]
  | cons p pins ih =>
    obtain ⟨u, v, rest, hsu, hexec, hrest, hv⟩ := runsTo_first_command hs hes
    obtain ⟨given, t, rest', ht, hrest', hbound, hok⟩ := ih hv.admitted hrest
    obtain ⟨hbound₁, hok₁⟩ := boundPins_cfgAdd (hsu.count ▸ count_le_of_admitted hs) hexec
    have hparams : v.params = s.params := (exec_inv hexec).model_frame.1.trans hsu.params
    rw [hsu.boundPins_eq, hsu.params] at hbound₁
    rw [hsu.boundPins_eq] at hok₁
    refine ⟨_, t, rest', hv.trans ht, hrest', ?_, ?_⟩
    · rw [hbound, hbound₁, hparams, take_take_append, List.append_assoc, ← List.filter_append, List.singleton_append]
    · rw [hok, hok₁, List.singleton_append, pinsAnsweredOk_cons p pins, List.append_assoc]

/-- Behind a `CFG_CLEAR` the list starts on an empty array. -/
theorem runsTo_clear_cfgAdds (pins : List Pin) {es : List StepInput} {s : State} {ws : List PortWord}
    (hs : refusalOf s = none)
    (hes : commandsOf es = ([Instr.cfgClear] ++ pins.map Instr.cfgAdd).map encode ++ ws) :
    ∃ cleared given t rest, RunsTo es s (cleared :: given) rest t ∧ commandsOf rest = ws ∧
      boundPins t = (pins.filter (acceptedPin s.params)).take 12 ∧ boundPins t = pinsAnsweredOk pins given := by
  obtain ⟨u, v, rest, hsu, hexec, hrest, hv⟩ := runsTo_first_command hs hes
  obtain ⟨given, t, rest', ht, hrest', hbound, hok⟩ := runsTo_cfgAdds pins hv.admitted hrest
  cases hexec
  rw [boundPins_respond, boundPins_clearSlots, List.nil_append] at hbound hok
  rw [respond_params, clearSlots_params, hsu.params] at hbound
  exact ⟨_, given, t, rest', hv.trans ht, hrest', hbound, hok⟩

/-! ## The wire commands `buttons` and `test` (44_host_protocol.md R233, R235) -/

/-- The count field of the answer to `READ_STATUS` (30_encoding.md R87). -/
theorem statusWord_count (c : BitVec 4) : (statusWord c).extractLsb' 0 4 = c := by
  revert c
  decide

/-- The host reads the count off the last answer (R233). -/
theorem reply_buttons (P : Params) (entries : List FieldValue) (given : List Answer) (last : Answer) :
    reply P (.buttons entries) (given ++ [last]) = some (.buttonsConfigured (last.2.extractLsb' 0 4).toNat) := by
  rw [reply, List.getLast?_concat, Option.map_some]

/-- A list entry names an accepted pin exactly when it is an integer in the pin range and not reserved: a legal range lies
within the pin numbers (R233, D35). -/
theorem accepted_entry_iff {P : Params} (hlegal : P.legal = true) (n : Int) :
    ((pinOfEntry (.integer n)).map (acceptedPin P)).getD false = true ↔
      (P.pinMin : Int) ≤ n ∧ n ≤ P.pinMax ∧ n ≠ 0 ∧ n ≠ 1 ∧ ∀ p ∈ P.ledPins, (p.toNat : Int) ≠ n := by
  obtain ⟨_, _, hmax, _⟩ := (params_legal_iff P).1 hlegal
  cases hentry : pinOfEntry (.integer n) with
  | some p =>
    obtain rfl : n = p.toNat := by simpa using pinOfEntry_eq_some.1 hentry
    have hled : p ∉ P.ledPins ↔ ∀ q ∈ P.ledPins, (q.toNat : Int) ≠ p.toNat := by
      simp only [ne_eq, Int.natCast_inj, ← BitVec.toNat_eq]
      exact ⟨fun h q hq heq => h (heq ▸ hq), fun h hp => h p hp rfl⟩
    simp [acceptedPin_iff, hled, BitVec.toNat_eq]
  | none =>
    have hout : ¬ (0 ≤ n ∧ n ≤ 255) := by simpa [pinOfEntry] using hentry
    simp only [Option.map_none, Option.getD_none, Bool.false_eq_true, false_iff]
    rintro ⟨hmin, hle, _⟩
    omega

/-- Settles O52: as many pins are bound as the list has accepted entries, at most 12, and the closing `READ_STATUS` answers
their count. -/
theorem buttonsReportsTheBoundCount : Obligations.ButtonsReportsTheBoundCount := by
  intro es s entries hs hes
  obtain ⟨hlegal, _⟩ := (refusalOf_eq_none_iff s).1 hs
  rw [expand, List.map_append] at hes
  obtain ⟨cleared, given, u, rest, hu, hrest, hbound, _⟩ := runsTo_clear_cfgAdds _ hs hes
  obtain ⟨v, w, rest', huv, hexec, hrest', hw⟩ := runsTo_first_command hu.admitted hrest
  obtain ⟨t, ht, hwt⟩ := runsTo_end hw.admitted hrest'
  cases hexec
  obtain ⟨hrun, hanswers⟩ := ((hu.trans hw).trans ht).finished
  refine ⟨t, hrun, ?_⟩
  intro acceptable n
  have hcount : t.count = u.count := hwt.count.trans huv.count
  have hn : u.count.toNat = n := by
    rw [← length_boundPins (count_le_of_admitted hu.admitted), hbound, List.length_take, ← List.countP_eq_length_filter,
      List.countP_filterMap, List.countP_eq_length_filter]
    congr 3
    funext v
    cases v with
    | integer k => exact Bool.eq_iff_iff.2 ((accepted_entry_iff hlegal k).trans decide_eq_true_iff.symm)
    | notInteger => rfl
  refine ⟨by rw [hcount, hn], ?_⟩
  rw [hanswers, List.append_nil, reply_buttons, respond_result, statusWord_count, huv.count, hn]

/-- Settles O53: the six test pins are accepted and fit the empty array, so the pins bound and the pins answered `OK` are
these six in order. -/
theorem testModeBindsTheSixPins : Obligations.TestModeBindsTheSixPins := by
  intro es s hs hes
  obtain ⟨hlegal, _⟩ := (refusalOf_eq_none_iff s).1 hs
  obtain ⟨_, _, _, _, _, _, _, hsix, haccepted⟩ := (params_legal_iff _).1 hlegal
  rw [expand, ← List.append_nil (List.map encode _)] at hes
  obtain ⟨cleared, given, u, rest, hu, hrest, hbound, hok⟩ := runsTo_clear_cfgAdds _ hs hes
  obtain ⟨t, ht, hut⟩ := runsTo_end hu.admitted hrest
  obtain ⟨hrun, hanswers⟩ := (hu.trans ht).finished
  rw [List.filter_eq_self.2 haccepted, List.take_of_length_le (by omega)] at hbound
  have hcount : t.count.toNat = 6 := by
    rw [hut.count, ← length_boundPins (count_le_of_admitted hu.admitted), hbound, hsix]
  refine ⟨t, hrun, hcount, ?_, ?_⟩
  · rw [← hcount]
    exact hut.boundPins_eq.trans hbound
  · rw [hanswers, List.append_nil]
    exact congrArg (some ∘ OutMessage.testMode) (hok.symm.trans hbound)

/-! ## Placed inputs (R61, R62, 70_reset_and_hazards.md R294) -/

/-- An instruction reads nothing of the inputs to come. -/
theorem exec_withPending {i : Instr} {s t : State} (h : exec i s = .next t) (es : List StepInput) :
    exec i { s with pending := es } = .next { t with pending := es } := by
  cases i with
  | resetPos p =>
    simp only [exec, execResetPos] at h ⊢
    split at h <;> cases h <;> rfl
  | cfgAdd p =>
    simp only [exec, execCfgAdd] at h ⊢
    split at h <;> cases h <;> rfl
  | readSlot k =>
    simp only [exec, execReadSlot] at h ⊢
    split at h <;> cases h <;> rfl
  | readSlotTs k =>
    simp only [exec, execReadSlotTs] at h ⊢
    split at h <;> cases h <;> rfl
  | _ =>
    cases h
    rfl

/-- A step, once its input is taken, reads nothing of the inputs to come. -/
theorem stepOn_withPending {e : StepInput} {s t : State} (h : stepOn e s = .next t) (es : List StepInput) :
    stepOn e { s with pending := es } = .next { t with pending := es } := by
  obtain ⟨hs, ⟨i, hd, hx⟩ | ⟨err, hd, rfl⟩⟩ := stepOn_next h
  all_goals have hs' : refusalOf { s with pending := es } = none := hs
  · rw [stepOn_of_admitted hs', perform_of_decode_ok hd]
    exact exec_withPending hx es
  · rw [stepOn_of_admitted hs', perform_of_decode_error hd]
    rfl

/-- The inputs to come stay through a step. -/
theorem stepOn_pending {e : StepInput} {s t : State} (h : stepOn e s = .next t) : t.pending = s.pending := by
  obtain ⟨_, _, _, hpending, _⟩ := eachAgentWritesOnlyItsRegisters e s t h
  exact hpending

/-- A machine whose step answers a next state goes on from there. -/
theorem run_succ_of_next {M : Host.Core} {s t : M.State} (h : M.step s = .next t) (k : Nat) :
    M.run (k + 1) s = M.run k t := by
  rw [Host.Core.run, h]

/-- A machine whose step is refused stops. -/
theorem run_succ_of_refused {M : Host.Core} {s : M.State} {r : M.Refusal} (h : M.step s = .refused r) (k : Nat) :
    M.run (k + 1) s = .refused r := by
  rw [Host.Core.run, h]

/-- Settles O7, by induction on the inputs: each step takes the first of them, as if no other were placed. -/
theorem placedInputsRunInOrder : Obligations.PlacedInputsRunInOrder := by
  intro es
  induction es with
  | nil => exact fun s => rfl
  | cons e es ih =>
    intro s
    have htake : step { s with pending := e :: es ++ s.pending } = stepOn e { s with pending := es ++ s.pending } :=
      step_of_pending rfl
    cases hstep : stepOn e s with
    | next t =>
      rw [stepOn_withPending hstep, ← stepOn_pending hstep] at htake
      rw [List.length_cons, runOn_cons_of_next hstep, ← ih t, ← stepOn_pending hstep]
      exact run_succ_of_next (M := Sys2Proof.core) htake es.length
    | refused r =>
      have hrefused : stepOn e { s with pending := es ++ s.pending } = .refused r :=
        (stepOn_refused_iff ..).2 ((stepOn_refused_iff e s r).1 hstep)
      rw [runOn, hstep]
      exact run_succ_of_refused (M := Sys2Proof.core) (htake.trans hrefused) es.length
    | fault f => cases f

/-! ## The reading commands (R66) -/

/-- The commands that change no state but the response. -/
def isReadingCommand : Instr → Bool
  | .nop | .readPos | .readRaw | .readQdec | .readSlot _ | .readSlotTs _ | .readStatus => true
  | .drain | .resetPos _ | .cfgClear | .cfgAdd _ | .scan | .qdecEdge _ _ => false

/-- A reading command only answers, and what it answers does not depend on the answer given before. -/
theorem exec_reading {i : Instr} (hi : isReadingCommand i = true) (s : State) :
    ∃ c w, exec i s = .next (respond c w s) ∧ ∀ c' w', exec i (respond c' w' s) = .next (respond c w s) := by
  cases i with
  | nop | readPos | readRaw | readQdec | readStatus => exact ⟨_, _, rfl, fun _ _ => rfl⟩
  | readSlot k =>
    simp only [exec, execReadSlot]
    cases slotArg k <;> exact ⟨_, _, rfl, fun _ _ => rfl⟩
  | readSlotTs k =>
    simp only [exec, execReadSlotTs]
    cases slotArg k <;> exact ⟨_, _, rfl, fun _ _ => rfl⟩
  | drain | resetPos | cfgClear | cfgAdd | scan | qdecEdge => simp [isReadingCommand] at hi

/-- Settles O29: a reading command only answers, and answers the same again after its own answer. -/
theorem readingCommandsChangeNoState : Obligations.ReadingCommandsChangeNoState := by
  intro i s hmem
  have hi : isReadingCommand i = true := by
    rcases hmem with hmem | ⟨k, rfl | rfl⟩
    · revert i; decide
    all_goals rfl
  obtain ⟨c, w, hfirst, hagain⟩ := exec_reading hi s
  exact ⟨c, w, hfirst, hagain c w⟩

end Sys2Proof.Machine

/-!
PROOFS. 30_encoding.md: the decoder and the encoder are inverse (R80, R81, R83, R88), the opcode table says of a word what the
decoder says (R85), and a command word is decoded in the order of R84.
-/

namespace Sys2Proof.Machine

/-! ## The decoder and the encoder (R80, R81, R83) -/

/-- The reserved opcodes are 0xC..0xF (R83). -/
theorem commandOf_eq_none_iff (op : BitVec 4) (arg : Arg) : commandOf op arg = none ↔ 0xC ≤ op.toNat := by
  have hop : op.toNat < 16 := op.isLt
  unfold commandOf
  interval_cases op.toNat <;> simp

/-- The decoder accepts a word exactly when none of the three reasons of R84 stands against it. -/
theorem decodeCommand_eq_ok_iff {w : Word} {i : Instr} :
    decodeCommand w = .ok i ↔
      commandOf (opField w) (argField w) = some i ∧ mbzField w = 0 ∧ (takesArg (opField w) = false → argField w = 0) := by
  unfold decodeCommand
  split
  · next hnone => simp [hnone]
  · next j hsome =>
    rw [hsome]
    split_ifs with hmbz harg
    · exact iff_of_false nofun fun ⟨_, hzero, _⟩ => hmbz hzero
    · exact iff_of_false nofun fun ⟨_, _, hfree⟩ => harg.2 (hfree harg.1)
    · have hfree : takesArg (opField w) = false → argField w = 0 := fun h => not_not.1 fun ha => harg ⟨h, ha⟩
      rw [and_iff_left ⟨not_not.1 hmbz, hfree⟩, Except.ok.injEq, Option.some.injEq]

/-- The command of an opcode and an argument, 0 where the opcode takes none, is encoded with that opcode and argument. -/
theorem encode_of_commandOf {op : BitVec 4} {arg : Arg} {i : Instr} (h : commandOf op arg = some i)
    (harg : takesArg op = false → arg = 0) : encode i = .command (commandWord op arg) := by
  unfold commandOf at h
  split at h
  case h_13 => simp at h
  all_goals
    next hop =>
    have hopcode : op = BitVec.ofNat 4 op.toNat := by simp
    rw [hop] at hopcode
    subst hopcode
    obtain rfl := Option.some.inj h
    simp_all [encode, takesArg]

/-- Decoding and encoding are inverse: a word or event decodes to the one instruction it is the encoding of. -/
theorem decode_eq_ok_iff {x : PortWord} {i : Instr} : decode x = .ok i ↔ encode i = x := by
  refine ⟨fun h => ?_, fun h => h ▸ decode_encode i⟩
  cases x with
  | command w =>
    obtain ⟨hop, hmbz, harg⟩ := decodeCommand_eq_ok_iff.1 h
    rw [encode_of_commandOf hop harg, commandWord_fields hmbz]
  | event c =>
    obtain rfl := Except.ok.inj h
    exact congrArg PortWord.event (encoderCode_bits c)

/-- Settles O1: the decoder undoes the encoder, and each decoded word is put together again from its fields. -/
theorem decodeAndEncodeAgree : Obligations.DecodeAndEncodeAgree :=
  ⟨decode_encode, fun _ _ h => decode_eq_ok_iff.1 h⟩

/-- Settles O4: each word or event is the encoding of its instruction. -/
theorem writtenOutWordsDecode : Obligations.WrittenOutWordsDecode := by
  simp only [Obligations.WrittenOutWordsDecode, decode_eq_ok_iff]
  decide

/-! ## The opcode table (R85) -/

theorem opField_and (w m : Word) : opField (w &&& m) = opField w &&& opField m := BitVec.extractLsb'_and

theorem mbzField_and (w m : Word) : mbzField (w &&& m) = mbzField w &&& mbzField m := BitVec.extractLsb'_and

theorem argField_and (w m : Word) : argField (w &&& m) = argField w &&& argField m := BitVec.extractLsb'_and

/-- What the three fields of a row's mask and pattern are: the mask covers `OP` and `MBZ`, and `ARG` too where the opcode takes
no argument; the pattern has a command's opcode and is zero elsewhere. -/
theorem opcodeTable_fields : ∀ r ∈ opcodeTable,
    opField r.mask = BitVec.allOnes 4 ∧ mbzField r.mask = BitVec.allOnes 20 ∧
    (takesArg (opField r.pattern) = false → argField r.mask = BitVec.allOnes 8) ∧
    (opField r.pattern).toNat < 0xC ∧ mbzField r.pattern = 0 ∧ argField r.pattern = 0 := by decide

/-- A row's word decodes to a command: the row's mask and pattern say of its fields what R84 asks. -/
theorem decodes_of_accepts {r : OpcodeRow} (hr : r ∈ opcodeTable) {w : Word} (hw : r.accepts w = true) :
    ∃ i, decodeCommand w = .ok i := by
  obtain ⟨hopMask, hmbzMask, hargMask, hop, hmbz, harg⟩ := opcodeTable_fields r hr
  have hand : w &&& r.mask = r.pattern := by simpa [OpcodeRow.accepts] using hw
  have hopw : opField w = opField r.pattern := by rw [← hand, opField_and, hopMask, BitVec.and_allOnes]
  have hmbzw : mbzField w = 0 := by rw [← hmbz, ← hand, mbzField_and, hmbzMask, BitVec.and_allOnes]
  have hargw : takesArg (opField w) = false → argField w = 0 := fun hfree => by
    rw [← harg, ← hand, argField_and, hargMask (hopw ▸ hfree), BitVec.and_allOnes]
  have hsome : commandOf (opField w) (argField w) ≠ none := by
    rw [ne_eq, commandOf_eq_none_iff, hopw]
    omega
  obtain ⟨i, hi⟩ := Option.ne_none_iff_exists'.1 hsome
  exact ⟨i, decodeCommand_eq_ok_iff.2 ⟨hi, hmbzw, hargw⟩⟩

/-- A word of no command is of no row. -/
theorem rowsOf_eq_nil {w : Word} (h : ∀ i, decodeCommand w ≠ .ok i) : rowsOf w = [] := by
  rw [rowsOf, List.map_eq_nil_iff, List.filter_eq_nil_iff]
  intro r hr hw
  obtain ⟨i, hi⟩ := decodes_of_accepts hr hw
  exact h i hi

/-- Every instruction's encoding is among the words of its own row and of no other (30_encoding.md R83). -/
theorem encodesItsRow (i : Instr) : Laws.EncodesItsRow.Statement i := by
  cases i with
  | nop => exact Laws.EncodesItsRow.nop
  | readPos => exact Laws.EncodesItsRow.readPos
  | drain => exact Laws.EncodesItsRow.drain
  | resetPos p => exact Laws.EncodesItsRow.resetPos p
  | readRaw => exact Laws.EncodesItsRow.readRaw
  | readQdec => exact Laws.EncodesItsRow.readQdec
  | cfgClear => exact Laws.EncodesItsRow.cfgClear
  | cfgAdd p => exact Laws.EncodesItsRow.cfgAdd p
  | scan => exact Laws.EncodesItsRow.scan
  | readSlot k => exact Laws.EncodesItsRow.readSlot k
  | readSlotTs k => exact Laws.EncodesItsRow.readSlotTs k
  | readStatus => exact Laws.EncodesItsRow.readStatus
  | qdecEdge a b => exact Laws.EncodesItsRow.qdecEdge a b

/-- A command's word is of the command's row alone. -/
theorem rowsOf_of_decode {w : Word} {i : Instr} (h : decode (.command w) = .ok i) : rowsOf w = [i.mnemonic] := by
  have hrow := encodesItsRow i
  simpa [Laws.EncodesItsRow.Statement, decode_eq_ok_iff.1 h] using hrow

/-- A word of no command changes nothing but the response (R84). -/
theorem perform_of_no_command {w : Word} (h : ∀ i, decodeCommand w ≠ .ok i) (inp : Inputs) (s : State) :
    perform ⟨.hostPort w, inp⟩ s = .next { s with inputs := inp, resp := .ignored, result := 0 } := by
  cases hd : decodeCommand w with
  | ok i => exact absurd hd (h i)
  | error err => exact perform_of_decode_error (e := ⟨.hostPort w, inp⟩) hd s

/-- Settles O2: the decoder accepts the word, which is then of its instruction's row, or no row does. -/
theorem everyWordHasOneRowOrIsIgnored : Obligations.EveryWordHasOneRowOrIsIgnored := by
  refine ⟨fun w => ?_, by decide, by decide⟩
  by_cases h : ∃ i, decodeCommand w = .ok i
  · obtain ⟨i, hi⟩ := h
    exact .inl ⟨i, hi, rowsOf_of_decode hi⟩
  · have hno : ∀ i, decodeCommand w ≠ .ok i := not_exists.1 h
    exact .inr ⟨rowsOf_eq_nil hno, perform_of_no_command hno⟩

/-! ## The order of decoding (R84) -/

/-- The opcodes that take no argument, reserved ones apart (R82). -/
theorem takesArg_eq_false_iff {op : BitVec 4} (h : op.toNat < 0xC) :
    takesArg op = false ↔ op.toNat ∈ [0x0, 0x1, 0x2, 0x4, 0x5, 0x6, 0x8, 0xB] := by
  revert op; decide

/-- Settles O3: each check of R84 that fails refuses the word, and a word that passes all three is its opcode's command. -/
theorem commandWordsDecodeInOrder : Obligations.CommandWordsDecodeInOrder := by
  intro w inp s op mbz arg ignored
  split_ifs with hop hmbz harg
  · refine perform_of_no_command (fun i hi => ?_) inp s
    obtain ⟨hcmd, _, _⟩ := decodeCommand_eq_ok_iff.1 hi
    exact Option.some_ne_none i (hcmd.symm.trans ((commandOf_eq_none_iff (opField w) arg).2 hop))
  · refine perform_of_no_command (fun i hi => ?_) inp s
    obtain ⟨_, hzero, _⟩ := decodeCommand_eq_ok_iff.1 hi
    exact hmbz hzero
  · refine perform_of_no_command (fun i hi => ?_) inp s
    obtain ⟨_, _, hfree⟩ := decodeCommand_eq_ok_iff.1 hi
    exact harg.2 (hfree ((takesArg_eq_false_iff (Nat.lt_of_not_le hop)).2 harg.1))
  · obtain ⟨i, hi⟩ := Option.ne_none_iff_exists'.1 fun hnone => hop ((commandOf_eq_none_iff (opField w) arg).1 hnone)
    have hfree : takesArg (opField w) = false → argField w = 0 := fun h =>
      not_not.1 fun ha => harg ⟨(takesArg_eq_false_iff (Nat.lt_of_not_le hop)).1 h, ha⟩
    have hd : decodeCommand w = .ok i := decodeCommand_eq_ok_iff.2 ⟨hi, not_not.1 hmbz, hfree⟩
    exact ⟨i, hi, perform_of_decode_ok (e := ⟨.hostPort w, inp⟩) hd s⟩

end Sys2Proof.Machine

/-!
PROOFS. 40_qdec_fsm.md: the decoder step case by case (R110 to R117), the bound of the accumulator (R118), the steps that
count nothing (R119, R120), and the laws of many steps: replay (R121), direction (R122), four pulses (R123).
-/

namespace Sys2Proof.Machine

/-! ## One decoder step (R110 to R117) -/

/-- One click forward on the ring (R117). -/
theorem advancePosition_one (q : BitVec 7) : advancePosition q 1 = BitVec.ofNat 7 ((q.toNat + 1) % 100) := by
  apply BitVec.eq_of_toNat_eq
  simp only [advancePosition, Config.posMod, one_ne_zero, if_false, BitVec.toNat_ofInt, BitVec.toNat_ofNat]
  omega

/-- One click back on the ring: 99 forward (R117). -/
theorem advancePosition_neg_one (q : BitVec 7) : advancePosition q (-1) = BitVec.ofNat 7 ((q.toNat + 99) % 100) := by
  have hne : (-1 : Int) ≠ 0 := by decide
  apply BitVec.eq_of_toNat_eq
  simp only [advancePosition, Config.posMod, hne, if_false, BitVec.toNat_ofInt, BitVec.toNat_ofNat]
  omega

/-- Clicks are added in 24-bit two's complement (R117). -/
theorem addClicks_eq_add (k : BitVec 24) (n : Int) : addClicks k n = k + BitVec.ofInt 24 n := by
  rw [addClicks, BitVec.ofInt_add, BitVec.ofInt_toInt]

/-- The moved accumulator in the words of R110. -/
theorem movedPulses_eq_ite (invert : Bool) (prev : Code) (pulses : BitVec 3) (cur : Code) :
    movedPulses invert prev pulses cur =
      if invert then pulses.toInt - transition prev cur else pulses.toInt + transition prev cur := by
  cases invert <;> simp [movedPulses, pulseMove, sub_eq_add_neg]

/-- A step that reaches +4 counts one click forward (R115). -/
theorem decoderStep_of_moved_eq_four {cur : Code} {s : State}
    (h : movedPulses s.params.invert s.prev s.pulses cur = 4) :
    decoderStep cur s = { s with
      prev := cur, pulses := 0, position := BitVec.ofNat 7 ((s.position.toNat + 1) % 100), clicks := s.clicks + 1 } := by
  have hclick : clickOf 4 = 1 := rfl
  rw [decoderStep, h, hclick, advancePosition_one, addClicks_eq_add]
  rfl

/-- A step that reaches -4 counts one click back (R115). -/
theorem decoderStep_of_moved_eq_neg_four {cur : Code} {s : State}
    (h : movedPulses s.params.invert s.prev s.pulses cur = -4) :
    decoderStep cur s = { s with
      prev := cur, pulses := 0, position := BitVec.ofNat 7 ((s.position.toNat + 99) % 100), clicks := s.clicks - 1 } := by
  have hclick : clickOf (-4) = -1 := rfl
  rw [decoderStep, h, hclick, advancePosition_neg_one, addClicks_eq_add, BitVec.ofInt_neg, ← BitVec.sub_eq_add_neg]
  rfl

/-- Any other step counts no click (R115). -/
theorem decoderStep_of_no_click {cur : Code} {s : State}
    (h : clickOf (movedPulses s.params.invert s.prev s.pulses cur) = 0) :
    decoderStep cur s =
      { s with prev := cur, pulses := BitVec.ofInt 3 (movedPulses s.params.invert s.prev s.pulses cur) } := by
  rw [decoderStep, h, advancePosition_zero, addClicks_zero, settledPulses, if_pos h]
  rfl

/-- Settles O13: the moved accumulator is the rule's `p1`, and the step is one of the three above. -/
theorem decoderStepResult : Obligations.DecoderStepResult := by
  intro a b s
  refine ⟨decode_encode (.qdecEdge a b), ?_⟩
  intro cur idx d p1
  have hp1 : movedPulses s.params.invert s.prev s.pulses cur = p1 := movedPulses_eq_ite ..
  change Host.Outcome.next (decoderStep cur s) = _
  rcases clickOf_cases p1 with ⟨h, _⟩ | ⟨h, _⟩ | ⟨hup, hdown, h⟩
  · rw [if_pos h, decoderStep_of_moved_eq_four (hp1.trans h)]
  · have hne : p1 ≠ 4 := by omega
    rw [if_neg hne, if_pos h, decoderStep_of_moved_eq_neg_four (hp1.trans h)]
  · rw [if_neg hup, if_neg hdown, decoderStep_of_no_click (by rw [hp1, h]), hp1]

/-! ## Steps that count nothing (R119, R120) -/

theorem range_of_admitted {s : State} (hs : refusalOf s = none) : RegistersInRange s :=
  ((refusalOf_eq_none_iff s).1 hs).2

/-- The stored accumulators are those in -3..3 (R26, R118). -/
theorem pulses_ne_neg_four_iff {p : BitVec 3} : p.toInt ≠ -4 ↔ -3 ≤ p.toInt ∧ p.toInt ≤ 3 := by
  revert p; decide

/-- Below 4 in size, the moved accumulator makes no click (R115). -/
theorem clickOf_eq_zero {p1 : Int} (hlo : -4 < p1) (hhi : p1 < 4) : clickOf p1 = 0 := by
  rcases clickOf_cases p1 with ⟨h, _⟩ | ⟨h, _⟩ | ⟨_, _, h⟩
  · omega
  · omega
  · exact h

/-- A step without a move writes `prev` alone. -/
theorem decoderStep_of_no_move {cur : Code} {s : State} (hp : s.pulses.toInt ≠ -4)
    (h : pulseMove s.params.invert s.prev cur = 0) : decoderStep cur s = { s with prev := cur } := by
  have hmoved : movedPulses s.params.invert s.prev s.pulses cur = s.pulses.toInt := by rw [movedPulses, h, add_zero]
  have hclick : clickOf s.pulses.toInt = 0 := by
    obtain ⟨hge, hle⟩ := pulses_ne_neg_four_iff.1 hp
    exact clickOf_eq_zero (by omega) (by omega)
  rw [decoderStep_of_no_click (by rw [hmoved, hclick]), hmoved, BitVec.ofInt_toInt]

/-- A transition of the table counts for neither polarity where the table has 0 (R113, R114). -/
theorem pulseMove_of_transition_eq_zero {prev cur : Code} (h : transition prev cur = 0) (invert : Bool) :
    pulseMove invert prev cur = 0 := by
  simp [pulseMove, h]

/-- A skipped code is no transition (R113). -/
theorem transition_not (c : Code) : transition c (~~~c) = 0 := by
  revert c; decide

/-- Settles O16: a skipped code makes no move. -/
theorem invalidStepChangesOnlyPrev : Obligations.InvalidStepChangesOnlyPrev := by
  intro a b s hp hskip
  have hmove := pulseMove_of_transition_eq_zero (transition_not s.prev) s.params.invert
  exact congrArg Host.Outcome.next (decoderStep_of_no_move (by omega) (hskip ▸ hmove))

/-- An unchanged code changes no register (R119). -/
theorem decoderStep_prev {s : State} (hp : s.pulses.toInt ≠ -4) : decoderStep s.prev s = s :=
  decoderStep_of_no_move hp (pulseMove_of_transition_eq_zero (transition_self s.prev) s.params.invert)

/-- Each step brings its own levels: those on the ports before it show in nothing it does (10_state.md R20). -/
theorem stepOn_setInputs (f : StepInput) (inp : Inputs) (s : State) : stepOn f (setInputs inp s) = stepOn f s := rfl

/-- A run that comes to `t` goes on from `t` with what is placed behind it. -/
theorem runsTo_append {es : List StepInput} {s t : State} (h : runOn es s = .next t) (ht : refusalOf t = none)
    (fs : List StepInput) : RunsTo (es ++ fs) s (answers es s) fs t := by
  induction es generalizing s with
  | nil =>
    cases h
    exact .refl fs ht
  | cons e es ih =>
    obtain ⟨u, hu, hrun⟩ := runOn_cons_next h
    obtain ⟨hruns, hanswers, _⟩ := ih hrun
    refine ⟨(runOn_cons_of_next hu (es ++ fs)).trans hruns, ?_, ht⟩
    simp only [answers, List.cons_append, answersOf, hu] at hanswers ⊢
    split <;> simp [hanswers]

/-- An admitted state takes the decoder's step. -/
theorem stepOn_decoder_of_admitted {s : State} (hs : refusalOf s = none) (inp : Inputs) :
    stepOn ⟨.decoder, inp⟩ s = .next (decoderStep (encoderCode inp.encA inp.encB) (setInputs inp s)) :=
  (stepOn_of_admitted hs _).trans (perform_decoder inp s)

/-- A decoder step on the unchanged sample answers nothing and leaves its levels on the ports. -/
theorem runsTo_idle {s : State} {inp : Inputs} (hs : refusalOf s = none)
    (hidle : encoderCode inp.encA inp.encB = s.prev) (es : List StepInput) :
    RunsTo (⟨.decoder, inp⟩ :: es) s [] es (setInputs inp s) := by
  have hstep : stepOn ⟨.decoder, inp⟩ s = .next (setInputs inp s) := by
    rw [stepOn_decoder_of_admitted hs, hidle]
    exact congrArg Host.Outcome.next (decoderStep_prev (s := setInputs inp s) (range_of_admitted hs).pulses)
  exact ⟨runOn_cons_of_next hstep es, by simp [answers, answersOf, hstep], hs⟩

/-- Settles O15: the added step leaves only its levels on the ports, which the step after it replaces. -/
theorem idleStepChangesNothing : Obligations.IdleStepChangesNothing := by
  refine ⟨fun a b s hp hidle => ?_, fun s t inp es gs f hrun ht hidle => ?_⟩
  · have hstep := decoderStep_prev (s := s) (by omega)
    rw [← hidle] at hstep
    exact congrArg Host.Outcome.next hstep
  · have hwith := (runsTo_append hrun ht _).trans (runsTo_idle ht hidle (f :: gs))
    have hwithout := runsTo_append hrun ht (f :: gs)
    refine ⟨?_, hwith.run.trans hwithout.run.symm⟩
    rw [hwith.answers, hwithout.answers, List.append_nil]
    rfl

/-! ## The accumulator over a run (R118) -/

/-- What every step keeps, every run keeps. -/
theorem runOn_keeps {P : State → Prop} (hstep : ∀ {e s t}, stepOn e s = .next t → P s → P t) {es : List StepInput}
    {s t : State} (h : runOn es s = .next t) (hs : P s) : P t := by
  induction es generalizing s with
  | nil =>
    cases h
    exact hs
  | cons e es ih =>
    obtain ⟨u, hu, hrun⟩ := runOn_cons_next h
    exact ih hrun (hstep hu hs)

/-- A step of either agent keeps the registers in range. -/
theorem stepOn_keeps_range {e : StepInput} {s t : State} (h : stepOn e s = .next t) (hs : RegistersInRange s) :
    RegistersInRange t := by
  obtain ⟨i, he⟩ := stepOn_effect h
  exact he.keeps_range (hs.setInputs e.inputs)

/-- The registers are in range at release, whatever the instantiation. -/
theorem atRelease_range (P : Params) (inp : Inputs) : RegistersInRange (State.atRelease P inp) :=
  ⟨by simp [State.atRelease], by simp [State.atRelease], by simp [State.atRelease]⟩

/-- Settles O14: normalisation keeps the moved accumulator below 4, and the commands write 0 or nothing. -/
theorem accumulatorStaysBelowFour : Obligations.AccumulatorStaysBelowFour := by
  refine ⟨fun a b s hs => ⟨_, rfl, ?_⟩, fun P inp es t h => ?_⟩
  · have hmoved := movedPulses_bound s.params.invert s.prev (encoderCode a b) (pulses_ne_neg_four_iff.2 hs)
    exact pulses_ne_neg_four_iff.1 (settledPulses_spec hmoved).2
  · exact pulses_ne_neg_four_iff.1 (runOn_keeps stepOn_keeps_range h (atRelease_range P inp)).pulses

/-! ## The replay law (R121) -/

/-- From `s` to `t` the accumulator moved by `moves` in all and `net` clicks were counted, as R121 relates them. -/
structure Replays (moves net : Int) (s t : State) : Prop where
  pulses   : 4 * net + t.pulses.toInt - s.pulses.toInt = moves
  position : (t.position.toNat : Int) = ((s.position.toNat : Int) + net) % 100
  clicks   : t.clicks = addClicks s.clicks net

theorem Replays.refl {s : State} (hs : s.position.toNat < 100) : Replays 0 0 s s :=
  ⟨by omega, by omega, (addClicks_zero s.clicks).symm⟩

theorem Replays.trans {moves moves' net net' : Int} {s t u : State} (h : Replays moves net s t)
    (k : Replays moves' net' t u) : Replays (moves + moves') (net + net') s u where
  pulses := by
    have hst := h.pulses
    have htu := k.pulses
    omega
  position := by
    have hst := h.position
    have htu := k.position
    omega
  clicks := by rw [k.clicks, h.clicks, addClicks_add]

/-- The move of one decoder step is counted in its click and its accumulator together (R115). -/
theorem replays_decoderStep {s : State} (hs : RegistersInRange s) (inp : Inputs) (cur : Code) :
    Replays (pulseMove s.params.invert s.prev cur) (clickOf (movedPulses s.params.invert s.prev s.pulses cur)) s
      (decoderStep cur (setInputs inp s)) where
  pulses := by
    obtain ⟨hsettled, _⟩ := settledPulses_spec (movedPulses_bound s.params.invert s.prev cur hs.pulses)
    have hmoved : movedPulses s.params.invert s.prev s.pulses cur =
      s.pulses.toInt + pulseMove s.params.invert s.prev cur := rfl
    simp only [decoderStep, setDecoder_pulses, setInputs_params, setInputs_prev, setInputs_pulses]
    omega
  position := advancePosition_toNat _ hs.position
  clicks := rfl

/-- The first step of a run adds its term to the sum. -/
theorem sumRun_cons_of_next (f : StepInput → State → State → Int) {e : StepInput} {s t : State}
    (h : stepOn e s = .next t) (es : List StepInput) : sumRun f (e :: es) s = f e s t + sumRun f es t := by
  simp [sumRun, h]

/-- A run of decoder steps completes and replays, by induction on the steps. -/
theorem runOn_replays {es : List StepInput} {s : State} (hs : refusalOf s = none) (hes : ∀ e ∈ es, e.agent = .decoder) :
    ∃ t, runOn es s = .next t ∧ Replays (sumRun pulsesMade es s) (sumRun clicksMade es s) s t := by
  induction es generalizing s with
  | nil => exact ⟨s, rfl, .refl (range_of_admitted hs).position⟩
  | cons e es ih =>
    obtain ⟨hdecoder, hrest⟩ := List.forall_mem_cons.1 hes
    obtain ⟨agent, inp⟩ := e
    obtain rfl : agent = .decoder := hdecoder
    have hstep := stepOn_decoder_of_admitted hs inp
    obtain ⟨t, hrun, hreplays⟩ := ih (stepOn_keeps_admitted hstep) hrest
    refine ⟨t, (runOn_cons_of_next hstep es).trans hrun, ?_⟩
    rw [sumRun_cons_of_next _ hstep, sumRun_cons_of_next _ hstep]
    exact (replays_decoderStep (range_of_admitted hs) inp (encoderCode inp.encA inp.encB)).trans hreplays

/-- Settles O17: the three fields of `Replays`. -/
theorem replayLaw : Obligations.ReplayLaw := by
  intro es s hs hes
  obtain ⟨t, hrun, hpulses, hposition, hclicks⟩ := runOn_replays hs hes
  exact ⟨t, hrun, hpulses, hposition, hclicks⟩

/-! ## Steps on given samples: moves and clicks -/

/-- The sum of `g` over the normalisations that moves of an accumulator make from the phase `p` on (R114, R115). -/
def clickSum (g : Int → Int) : Int → List Int → Int
  | _, [] => 0
  | p, m :: ms => g (clickOf (p + m)) + clickSum g (p + m - 4 * clickOf (p + m)) ms

theorem edges_cons (inp : Inputs) (a b : Bool) (xs : List (Bool × Bool)) :
    edges inp ((a, b) :: xs) = ⟨.decoder, { inp with encA := a, encB := b }⟩ :: edges inp xs := rfl

theorem agent_of_mem_edges {inp : Inputs} {xs : List (Bool × Bool)} : ∀ e ∈ edges inp xs, e.agent = .decoder :=
  List.forall_mem_map.2 fun _ _ => rfl

/-- The moves that a run sums are those of its samples. -/
theorem sumRun_pulsesMade_edges {s : State} (hs : refusalOf s = none) (inp : Inputs) (xs : List (Bool × Bool)) :
    sumRun pulsesMade (edges inp xs) s = (movesOf s.params.invert s.prev xs).sum := by
  induction xs generalizing s with
  | nil => rfl
  | cons x xs ih =>
    obtain ⟨a, b⟩ := x
    have hstep := stepOn_decoder_of_admitted hs { inp with encA := a, encB := b }
    rw [edges_cons, sumRun_cons_of_next _ hstep, ih (stepOn_keeps_admitted hstep)]
    rfl

/-- The clicks of a run are those its moves make from the phase it starts in. -/
theorem sumRun_clicks_edges (g : Int → Int) {s : State} (hs : refusalOf s = none) (inp : Inputs)
    (xs : List (Bool × Bool)) :
    sumRun (fun e s t => g (clicksMade e s t)) (edges inp xs) s =
      clickSum g s.pulses.toInt (movesOf s.params.invert s.prev xs) := by
  induction xs generalizing s with
  | nil => rfl
  | cons x xs ih =>
    obtain ⟨a, b⟩ := x
    have hstep := stepOn_decoder_of_admitted hs { inp with encA := a, encB := b }
    have hphase : (decoderStep (encoderCode a b) (setInputs { inp with encA := a, encB := b } s)).pulses.toInt =
        s.pulses.toInt + pulseMove s.params.invert s.prev (encoderCode a b) -
          4 * clickOf (movedPulses s.params.invert s.prev s.pulses (encoderCode a b)) := by
      have := (replays_decoderStep (range_of_admitted hs) { inp with encA := a, encB := b } (encoderCode a b)).pulses
      omega
    rw [edges_cons, sumRun_cons_of_next _ hstep, ih (stepOn_keeps_admitted hstep), movesOf, clickSum]
    exact congrArg (_ + clickSum g · _) hphase

/-- The net clicks of a run on samples. -/
theorem sumRun_clicksMade_edges {s : State} (hs : refusalOf s = none) (inp : Inputs) (xs : List (Bool × Bool)) :
    sumRun clicksMade (edges inp xs) s = clickSum id s.pulses.toInt (movesOf s.params.invert s.prev xs) :=
  sumRun_clicks_edges id hs inp xs

/-- The number of clicks of a run on samples, of either sign. -/
theorem sumRun_clicksCounted_edges {s : State} (hs : refusalOf s = none) (inp : Inputs) (xs : List (Bool × Bool)) :
    sumRun clicksCounted (edges inp xs) s = clickSum abs s.pulses.toInt (movesOf s.params.invert s.prev xs) :=
  sumRun_clicks_edges abs hs inp xs

/-! ## Moves all of one sign

`dir` is the sign of the moves, and `q` the phase measured in their direction: the accumulator is `dir * q`. -/

section OneSign

variable {dir : Int} (hdir : dir = 1 ∨ dir = -1) {g : Int → Int} (hg : g 0 = 0)
include hdir hg

/-- Moves that do not bring the phase to 4 make no click. -/
theorem clickSum_replicate_of_lt {n : Nat} {q : Int} (hlo : -4 < q) (hhi : q + n < 4) :
    clickSum g (dir * q) (List.replicate n dir) = 0 := by
  induction n generalizing q with
  | zero => rfl
  | succ n ih =>
    have hmove : dir * q + dir = dir * (q + 1) := by ring
    have hclick : clickOf (dir * (q + 1)) = 0 := by
      rcases hdir with rfl | rfl <;> exact clickOf_eq_zero (by omega) (by omega)
    rw [List.replicate_succ, clickSum, hmove, hclick, hg, mul_zero, sub_zero, zero_add]
    exact ih (by omega) (by omega)

/-- Moves that bring the phase to 4 make a click of their sign there, and the moves left over start from phase 0. -/
theorem clickSum_replicate_of_reach {n j : Nat} {q : Int} (hlo : -4 < q) (hhi : q < 4) (hn : q + n = 4 + j) :
    clickSum g (dir * q) (List.replicate n dir) = g dir + clickSum g (dir * 0) (List.replicate j dir) := by
  induction n generalizing q with
  | zero => omega
  | succ n ih =>
    have hmove : dir * q + dir = dir * (q + 1) := by ring
    rw [List.replicate_succ, clickSum, hmove]
    by_cases hq : q + 1 = 4
    · have hclick : clickOf (dir * 4) = dir := by rcases hdir with rfl | rfl <;> rfl
      obtain rfl : n = j := by omega
      rw [hq, hclick, mul_comm 4 dir, sub_self, mul_zero]
    · have hclick : clickOf (dir * (q + 1)) = 0 := by
        rcases hdir with rfl | rfl <;> exact clickOf_eq_zero (by omega) (by omega)
      rw [hclick, hg, mul_zero, sub_zero, zero_add]
      exact ih (by omega) (by omega) (by omega)

end OneSign

/-- The accumulator of an admitted state as a phase in the direction `dir`. -/
theorem phase_of_admitted {s : State} (hs : refusalOf s = none) {dir : Int} (hdir : dir = 1 ∨ dir = -1) :
    ∃ q, -4 < q ∧ q < 4 ∧ s.pulses.toInt = dir * q ∧ dir * s.pulses.toInt = q := by
  obtain ⟨hge, hle⟩ := pulses_ne_neg_four_iff.1 (range_of_admitted hs).pulses
  rcases hdir with rfl | rfl <;> exact ⟨_, by omega, by omega, by ring, rfl⟩

/-! ## The direction law (R122) -/

/-- Without clicks, a replay moves the accumulator alone. -/
theorem Replays.of_no_click {moves : Int} {s t : State} (h : Replays moves 0 s t) (hs : s.position.toNat < 100) :
    t.pulses.toInt = s.pulses.toInt + moves ∧ t.position = s.position ∧ t.clicks = s.clicks := by
  obtain ⟨hpulses, hposition, hclicks⟩ := h
  exact ⟨by omega, BitVec.eq_of_toNat_eq (by omega), by rw [hclicks, addClicks_zero]⟩

/-- The moves of a run cut short are its first moves. -/
theorem movesOf_take (invert : Bool) (prev : Code) (xs : List (Bool × Bool)) (k : Nat) :
    movesOf invert prev (xs.take k) = (movesOf invert prev xs).take k := by
  induction xs generalizing prev k with
  | nil => simp [movesOf]
  | cons x xs ih =>
    cases k with
    | zero => rfl
    | succ k => simp [movesOf, ih]

/-- A run on samples that all move by `dir` replays that many moves. -/
theorem runOn_edges_replays {s : State} (hs : refusalOf s = none) (inp : Inputs) {xs : List (Bool × Bool)} {n : Nat}
    {dir : Int} (hmoves : movesOf s.params.invert s.prev xs = List.replicate n dir) :
    ∃ t, runOn (edges inp xs) s = .next t ∧
      Replays (dir * n) (clickSum id s.pulses.toInt (List.replicate n dir)) s t := by
  obtain ⟨t, hrun, hreplays⟩ := runOn_replays hs (agent_of_mem_edges (inp := inp) (xs := xs))
  rw [sumRun_pulsesMade_edges hs, sumRun_clicksMade_edges hs, hmoves, List.sum_replicate, nsmul_eq_mul,
    mul_comm] at hreplays
  exact ⟨t, hrun, hreplays⟩

/-- The samples of one full turn from code 00, channel B or channel A leading (R122). -/
def fullCycle (bLeads : Bool) : List (Bool × Bool) :=
  if bLeads then [(false, true), (true, true), (true, false), (false, false)]
  else [(true, false), (true, true), (false, true), (false, false)]

/-- Its four moves are of one sign, up when the leading channel is the one `INVERT` asks for (R113, R114). -/
theorem movesOf_fullCycle (invert bLeads : Bool) :
    movesOf invert 0 (fullCycle bLeads) = List.replicate 4 (if bLeads = invert then 1 else -1) := by
  revert invert bLeads; decide

/-- A full turn ends on code 00, where it started. -/
theorem lastCode_fullCycle (c : Code) (inp : Inputs) (bLeads : Bool) : lastCode c (edges inp (fullCycle bLeads)) = 0 := by
  have hcode : encoderCode false false = 0 := by decide
  cases bLeads <;> exact hcode

/-- Settles O18: from phase 0, fewer than four moves of one sign make no click, and the fourth makes one. -/
theorem directionLaw : Obligations.DirectionLaw := by
  intro s inp bLeads hs hprev hpulses cycle dir
  have hdir : dir = 1 ∨ dir = -1 := by
    simp only [dir]
    split <;> simp
  have hphase : s.pulses.toInt = dir * 0 := by simp [hpulses]
  have hposition := (range_of_admitted hs).position
  have hcycle : movesOf s.params.invert s.prev cycle = List.replicate 4 dir := by
    rw [hprev]
    exact movesOf_fullCycle s.params.invert bLeads
  refine ⟨fun k hk => ?_, ?_⟩
  · have hmoves : movesOf s.params.invert s.prev (cycle.take k) = List.replicate k dir := by
      rw [movesOf_take, hcycle, List.take_replicate, Nat.min_eq_left hk.le]
    obtain ⟨t, hrun, hreplays⟩ := runOn_edges_replays hs inp hmoves
    rw [hphase, clickSum_replicate_of_lt hdir rfl (by omega) (by omega)] at hreplays
    obtain ⟨hp, hq, hc⟩ := hreplays.of_no_click hposition
    exact ⟨t, hrun, by rw [hp, hphase, mul_zero, zero_add], hq, hc⟩
  · obtain ⟨t, hrun, hreplays⟩ := runOn_edges_replays hs inp hcycle
    rw [hphase, clickSum_replicate_of_reach hdir rfl (j := 0) (by omega) (by omega) (by omega)] at hreplays
    obtain ⟨hp, hq, hc⟩ : Replays (dir * 4) (dir + 0) s t := hreplays
    rw [add_zero] at hp hq hc
    refine ⟨t, hrun, ?_, ?_, hq, by rw [hc, addClicks_eq_add]⟩
    · rw [prevIsTheLastDecoderSample _ _ _ hrun]
      exact lastCode_fullCycle s.prev inp bLeads
    · have hzero : (0 : BitVec 3).toInt = 0 := rfl
      exact BitVec.eq_of_toInt_eq (by omega)

/-! ## The four-pulse law (R123) -/

/-- Settles O19: four moves reach phase 4 at most once, and do where the phase is of no opposite sign; eight reach it once,
and four of the moves left over reach it again. -/
theorem fourPulseLaw : Obligations.FourPulseLaw := by
  intro s inp samples dir hs hdir
  obtain ⟨q, hlo, hhi, hphase, hq⟩ := phase_of_admitted hs hdir
  have habs : |dir| = 1 := by rcases hdir with rfl | rfl <;> rfl
  rw [sumRun_clicksMade_edges hs, sumRun_clicksCounted_edges hs, hq, hphase]
  refine ⟨fun hmoves => ?_, fun hmoves => ?_⟩
  · rw [hmoves]
    refine ⟨fun hsame => ?_, fun hopposite => clickSum_replicate_of_lt hdir abs_zero hlo (by omega)⟩
    lift q to Nat using hsame
    rw [clickSum_replicate_of_reach hdir rfl (j := q) hlo hhi (by omega),
      clickSum_replicate_of_reach hdir abs_zero (j := q) hlo hhi (by omega),
      clickSum_replicate_of_lt hdir rfl (by omega) (by omega),
      clickSum_replicate_of_lt hdir abs_zero (by omega) (by omega)]
    exact ⟨add_zero dir, by rw [habs, add_zero]⟩
  · obtain ⟨j, hj⟩ : ∃ j : Nat, q + 4 = j := ⟨(q + 4).toNat, by omega⟩
    rw [hmoves, clickSum_replicate_of_reach hdir abs_zero (j := j) hlo hhi (by omega), habs]
    by_cases hfew : j < 4
    · left
      rw [clickSum_replicate_of_lt hdir abs_zero (by omega) (by omega), add_zero]
    · right
      obtain ⟨i, rfl⟩ : ∃ i, j = 4 + i := ⟨j - 4, by omega⟩
      rw [clickSum_replicate_of_reach hdir abs_zero (j := i) (by omega) (by omega) (by omega), habs,
        clickSum_replicate_of_lt hdir abs_zero (by omega) (by omega)]
      rfl

end Sys2Proof.Machine

/-!
PROOFS. 41_encoder_access.md: the encoder commands one by one (R141, R143, R145 to R147, R149) and apart from the slots
(R140), the conservation of clicks (R144), and the position read back after a reset (R148), by the wire commands too
(44_host_protocol.md R231, R232).
-/

namespace Sys2Proof.Machine

/-! ## Command and result words (30_encoding.md R87, R88) -/

/-- A command word is `(OP << 28) | ARG` (R88). -/
theorem commandWord_eq_or (op : BitVec 4) (arg : Arg) :
    commandWord op arg = op.setWidth 32 <<< 28 ||| arg.setWidth 32 := by
  simpa [commandWord] using BitVec.setWidth_append_append_eq_shiftLeft_setWidth_or (w''' := 32) (b := op)
    (b' := (0 : BitVec 20)) (b'' := arg)

theorem positionWord_eq_setWidth (q : BitVec 7) : positionWord q = q.setWidth 32 := by
  rw [BitVec.setWidth_eq_append (by decide)]
  rfl

/-- A position below 100 loses nothing in the 7 bits of the register. -/
theorem setWidth_position {p : Arg} (hp : p.toNat < 100) : (p.setWidth 7).setWidth 32 = p.setWidth 32 := by
  apply BitVec.eq_of_toNat_eq
  simp only [BitVec.toNat_setWidth]
  omega

/-- The host reads a position off the low 7 bits. -/
theorem positionOf_setWidth {p : Arg} (hp : p.toNat < 100) : positionOf (p.setWidth 32) = p.toNat := by
  rw [positionOf, BitVec.extractLsb'_setWidth_of_le (by decide), BitVec.extractLsb'_toNat]
  omega

/-- The host reads back the clicks that `DRAIN` packed (44_host_protocol.md R237). -/
theorem drainedClicks_drainWord (c : BitVec 24) (q : BitVec 7) : drainedClicks (drainWord c q) = c.toInt :=
  congrArg BitVec.toInt <| calc (drainWord c q).extractLsb' 8 24
    _ = (c ++ (0 : BitVec 1)).extractLsb' 1 24 := BitVec.extractLsb'_append_eq_of_le (by decide)
    _ = c := BitVec.extractLsb'_append_eq_left

/-- With no clicks pending, the answer to `DRAIN` is the position alone (R143, corner case (i)). -/
theorem drainWord_zero (q : BitVec 7) : drainWord 0 q = q.setWidth 32 := by
  rw [BitVec.setWidth_eq_append (by decide)]
  rfl

theorem rawWord_eq_setWidth (a b : Bool) :
    rawWord a b = (BitVec.ofBool a ++ BitVec.ofBool b : BitVec 2).setWidth 32 := by
  rw [BitVec.setWidth_eq_append (by decide)]
  rfl

theorem qdecWord_eq_setWidth (pulses : BitVec 3) (prev : Code) :
    qdecWord pulses prev = (pulses ++ (0 : BitVec 2) ++ prev : BitVec 7).setWidth 32 := by
  revert pulses prev; decide

/-- Bits 6:4 of the answer to `READ_QDEC` are the accumulator. -/
theorem qdecWord_pulses (pulses : BitVec 3) (prev : Code) : (qdecWord pulses prev).extractLsb' 4 3 = pulses := by
  revert pulses prev; decide

/-! ## The commands one by one (R141, R143, R145 to R147, R149) -/

theorem exec_readPos (s : State) : exec .readPos s = .next (respond .ok (s.position.setWidth 32) s) := by
  rw [← positionWord_eq_setWidth]
  rfl

theorem exec_resetPos_of_lt {p : Arg} (hp : p.toNat < 100) (s : State) :
    exec (.resetPos p) s = .next (respond .ok (p.setWidth 32) (setPosition (p.setWidth 7) s)) := by
  simp only [exec, execResetPos, positionArg_of_lt hp, positionWord_eq_setWidth, BitVec.ofNat_toNat, setWidth_position hp]

theorem exec_resetPos_of_ge {p : Arg} (hp : 100 ≤ p.toNat) (s : State) : exec (.resetPos p) s = .next (ignore s) := by
  simp only [exec, execResetPos, positionArg_of_ge hp]

/-- Settles O21, by the answer `exec_readPos`. -/
theorem readPosAnswersThePosition : Obligations.ReadPosAnswersThePosition := by
  refine ⟨decode_encode .readPos, fun s => ⟨_, exec_readPos s, rfl, fun hs => ?_⟩⟩
  rwa [respond_result, BitVec.toNat_setWidth_of_le (by decide)]

/-- Settles O22: a second `DRAIN` finds the clicks cleared. -/
theorem drainTakesAndClearsTheClicks : Obligations.DrainTakesAndClearsTheClicks := by
  refine ⟨decode_encode .drain, fun s => ⟨_, rfl, rfl, ?_⟩⟩
  rw [← drainWord_zero]
  rfl

/-- Settles O23, by the domain of the argument. -/
theorem resetPosWritesOrIgnores : Obligations.ResetPosWritesOrIgnores := by
  intro p s
  refine ⟨decode_eq_ok_iff.2 (congrArg PortWord.command (commandWord_eq_or 3 p)), ?_⟩
  split
  · next hp => exact exec_resetPos_of_ge hp s
  · next hp => exact exec_resetPos_of_lt (Nat.lt_of_not_le hp) s

/-- Settles O24: the command only answers. -/
theorem readRawAnswersTheLevels : Obligations.ReadRawAnswersTheLevels := by
  refine ⟨decode_encode .readRaw, fun s => ?_⟩
  rw [← rawWord_eq_setWidth]
  rfl

/-- Settles O25: the accumulator is read back from bits 6:4. -/
theorem readQdecAnswersTheHiddenState : Obligations.ReadQdecAnswersTheHiddenState := by
  refine ⟨decode_encode .readQdec, fun s => ⟨_, rfl, ?_, fun hs hbits => ?_⟩⟩
  · rw [← qdecWord_eq_setWidth]
    rfl
  · have hpulses : s.pulses = 0b100 := (qdecWord_pulses s.pulses s.prev).symm.trans hbits
    rw [hpulses] at hs
    exact absurd hs (by decide)

/-! ## The encoder commands and the slots (R140) -/

/-- The commands of 41_encoder_access.md. -/
def isEncoderCommand : Instr → Bool
  | .readPos | .drain | .resetPos _ | .readRaw | .readQdec => true
  | .nop | .cfgClear | .cfgAdd _ | .scan | .readSlot _ | .readSlotTs _ | .readStatus | .qdecEdge _ _ => false

/-- The two states hold the same decoder registers. -/
structure SameDecoder (s u : State) : Prop where
  prev     : u.prev = s.prev
  pulses   : u.pulses = s.pulses
  clicks   : u.clicks = s.clicks
  position : u.position = s.position

/-- The response is no decoder register. -/
theorem SameDecoder.respond {s u : State} (h : SameDecoder s u) (c : Resp) (w : Word) (c' : Resp) (w' : Word) :
    SameDecoder (respond c w s) (respond c' w' u) :=
  ⟨h.prev, h.pulses, h.clicks, h.position⟩

/-- An encoder command writes neither the slots nor the ports. -/
theorem encoderCommand_frame {i : Instr} (hi : isEncoderCommand i = true) {s t : State} (h : exec i s = .next t) :
    t.slots = s.slots ∧ t.count = s.count ∧ t.inputs = s.inputs := by
  cases exec_inv h with
  | answer | drain | position => exact ⟨rfl, rfl, rfl⟩
  | clear heq | bind _ heq | scan heq | edge _ _ heq => simp [heq, isEncoderCommand] at hi

/-- An encoder command reads nothing but the decoder registers and the levels on the encoder inputs. -/
theorem encoderCommand_congr {i : Instr} (hi : isEncoderCommand i = true) {s u : State} (h : SameDecoder s u)
    (ha : u.inputs.encA = s.inputs.encA) (hb : u.inputs.encB = s.inputs.encB) :
    ∃ t v, exec i s = .next t ∧ exec i u = .next v ∧ t.resp = v.resp ∧ t.result = v.result ∧ SameDecoder v t := by
  obtain ⟨hprev, hpulses, hclicks, hposition⟩ := h
  have hsame : SameDecoder u s := ⟨hprev.symm, hpulses.symm, hclicks.symm, hposition.symm⟩
  cases i with
  | readPos => exact ⟨_, _, rfl, rfl, rfl, by simp [hposition], hsame.respond ..⟩
  | drain => exact ⟨_, _, rfl, rfl, rfl, by simp [hclicks, hposition], hsame.prev, hsame.pulses, rfl, hsame.position⟩
  | readRaw => exact ⟨_, _, rfl, rfl, rfl, by simp [ha, hb], hsame.respond ..⟩
  | readQdec => exact ⟨_, _, rfl, rfl, rfl, by simp [hpulses, hprev], hsame.respond ..⟩
  | resetPos p =>
    rcases Nat.lt_or_ge p.toNat 100 with hp | hp
    · exact ⟨_, _, exec_resetPos_of_lt hp s, exec_resetPos_of_lt hp u, rfl, rfl, hsame.prev, rfl, rfl, rfl⟩
    · exact ⟨_, _, exec_resetPos_of_ge hp s, exec_resetPos_of_ge hp u, rfl, rfl, hsame.respond ..⟩
  | nop | cfgClear | cfgAdd | scan | readSlot | readSlotTs | readStatus | qdecEdge => simp [isEncoderCommand] at hi

/-- Settles O28: the answers agree by `encoderCommand_congr`, the slots stay by `encoderCommand_frame`. -/
theorem encoderCommandsKeepOutOfTheSlots : Obligations.EncoderCommandsKeepOutOfTheSlots := by
  intro i s u hmem hprev hpulses hclicks hposition ha hb
  have hi : isEncoderCommand i = true := by
    rcases hmem with hmem | ⟨p, rfl⟩
    · revert i; decide
    · rfl
  obtain ⟨t, v, ht, hv, hresp, hresult, hsame⟩ := encoderCommand_congr hi ⟨hprev, hpulses, hclicks, hposition⟩ ha hb
  obtain ⟨hslots, hcount, hinputs⟩ := encoderCommand_frame hi ht
  exact ⟨t, v, ht, hv, hresp, hresult, hsame.prev, hsame.pulses, hsame.clicks, hsame.position, hslots, hcount, hinputs,
    encoderCommand_frame hi hv⟩

/-! ## Conservation of clicks (R144) -/

theorem instrOf_of_decode_ok {e : StepInput} {i : Instr} (h : decode (portWord e) = .ok i) : instrOf e = some i := by
  simp [instrOf, h, Except.toOption]

/-- Taking all pending clicks leaves none. -/
theorem addClicks_neg_toInt (k : BitVec 24) : addClicks k (-k.toInt) = 0 := by
  simp [addClicks]

theorem clicksReturned_eq_zero {e : StepInput} (h : instrOf e ≠ some .drain) (s t : State) :
    clicksReturned e s t = 0 := by
  unfold clicksReturned
  split
  · next hdrain => exact absurd hdrain h
  · rfl

theorem clicksDiscarded_eq_zero {e : StepInput} (h : ∀ p, instrOf e ≠ some (.resetPos p)) (s t : State) :
    clicksDiscarded e s t = 0 := by
  unfold clicksDiscarded
  split
  · next p hreset => exact absurd hreset (h p)
  · rfl

/-- The clicks a command takes are returned or discarded: `DRAIN` returns them, an accepted `RESET_POS` discards them, and no
other command takes any. -/
theorem exec_clicks {e : StepInput} {i : Instr} (he : instrOf e = some i) (hi : ∀ a b, i ≠ .qdecEdge a b) {s t : State}
    (h : exec i s = .next t) :
    t.clicks = addClicks s.clicks (-clicksReturned e s t - clicksDiscarded e s t) := by
  by_cases hdrain : i = .drain
  · subst hdrain
    cases h
    have hreturned : drainedClicks (drainWord s.clicks s.position) = s.clicks.toInt := drainedClicks_drainWord ..
    simp [clicksReturned, clicksDiscarded, he, hreturned, addClicks_neg_toInt]
  by_cases hreset : ∃ p, i = .resetPos p
  · obtain ⟨p, rfl⟩ := hreset
    rcases Nat.lt_or_ge p.toNat 100 with hp | hp
    · cases (exec_resetPos_of_lt hp s).symm.trans h
      simp [clicksReturned, clicksDiscarded, he, addClicks_neg_toInt]
    · cases (exec_resetPos_of_ge hp s).symm.trans h
      simp [clicksReturned, clicksDiscarded, he]
  · obtain ⟨_, _, _, hclicks, _⟩ := (exec_inv h).command_writes hi
    have hkept : t.clicks = s.clicks := not_not.1 fun hne => (hclicks hne).elim hdrain hreset
    rw [clicksReturned_eq_zero (by simpa [he] using hdrain), clicksDiscarded_eq_zero (by simpa [he] using hreset), hkept]
    exact (addClicks_zero _).symm

/-- One step's balance: the pending clicks change by those made, less those returned and those discarded. -/
theorem stepOn_clicks {e : StepInput} {s t : State} (h : stepOn e s = .next t) :
    t.clicks = addClicks s.clicks (clicksMade e s t - clicksReturned e s t - clicksDiscarded e s t) := by
  obtain ⟨agent, inp⟩ := e
  cases agent with
  | decoder =>
    have hedge : instrOf ⟨.decoder, inp⟩ = some (.qdecEdge inp.encA inp.encB) :=
      instrOf_of_decode_ok (decode_encode (.qdecEdge inp.encA inp.encB))
    rw [clicksReturned_eq_zero (by simp [hedge]), clicksDiscarded_eq_zero (by simp [hedge]), stepOn_decoder h]
    simp [clicksMade, decoderStep]
  | hostPort w =>
    have hmade : clicksMade ⟨.hostPort w, inp⟩ s t = 0 := rfl
    rw [hmade, zero_sub]
    obtain ⟨_, ⟨i, hd, hx⟩ | ⟨err, hd, rfl⟩⟩ := stepOn_next h
    · exact exec_clicks (s := setInputs inp s) (instrOf_of_decode_ok hd) (decode_command_ne_qdecEdge hd) hx
    · have hnone : instrOf ⟨.hostPort w, inp⟩ = none := by simp [instrOf, hd, Except.toOption]
      simp [clicksReturned_eq_zero, clicksDiscarded_eq_zero, hnone]

/-- Settles O26, by induction on the run: the balances of its steps add up. -/
theorem clicksAreConserved : Obligations.ClicksAreConserved := by
  intro es
  induction es with
  | nil =>
    intro s t h
    cases h
    simp [sumRun]
  | cons e es ih =>
    intro s t h
    obtain ⟨u, hu, ht⟩ := runOn_cons_next h
    have hrest : t.clicks = addClicks u.clicks
        (sumRun clicksMade es u - sumRun clicksReturned es u - sumRun clicksDiscarded es u) := by
      rw [ih u t ht, addClicks, add_sub_assoc, add_sub_assoc]
    simp only [sumRun_cons_of_next _ hu]
    rw [hrest, stepOn_clicks hu, addClicks_add, addClicks]
    congr 1
    ring

/-! ## The position read back after a reset (R148) -/

/-- The step of a command runs it on the step's own levels. -/
theorem stepOn_commandInput {i : Instr} (hi : ∀ a b, i ≠ .qdecEdge a b) {inp : Inputs} {s t : State}
    (hs : refusalOf s = none) (h : exec i (setInputs inp s) = .next t) : stepOn (commandInput inp i) s = .next t :=
  (stepOn_of_admitted hs _).trans ((perform_commandInput hi inp s).trans h)

/-- A command placed first gives one answer. -/
theorem runsTo_commandInput {i : Instr} (hi : ∀ a b, i ≠ .qdecEdge a b) {inp : Inputs} {s t : State}
    (hs : refusalOf s = none) (h : exec i (setInputs inp s) = .next t) (es : List StepInput) :
    RunsTo (commandInput inp i :: es) s [(t.resp, t.result)] es t := by
  have hstep := stepOn_commandInput hi hs h
  obtain ⟨w, hw⟩ := encode_eq_command hi
  have hcommand : isCommand (commandInput inp i) = true := by simp [commandInput, hw]
  exact ⟨runOn_cons_of_next hstep es, by simp [answers, answersOf, hstep, hcommand], stepOn_keeps_admitted hstep⟩

/-- `RESET_POS p` answers `p`, with the accumulators at 0 and `prev` as it was (R146, R147). -/
theorem runsTo_resetPos {p : Arg} (hp : p.toNat < 100) (inp : Inputs) {s : State} (hs : refusalOf s = none)
    (es : List StepInput) :
    RunsTo (commandInput inp (.resetPos p) :: es) s [(.ok, p.setWidth 32)] es
      (respond .ok (p.setWidth 32) (setPosition (p.setWidth 7) (setInputs inp s))) :=
  runsTo_commandInput (i := .resetPos p) nofun hs (exec_resetPos_of_lt hp _) es

/-- `READ_POS` answers the position (R141). -/
theorem runsTo_readPos (inp : Inputs) {s : State} (hs : refusalOf s = none) (es : List StepInput) :
    RunsTo (commandInput inp .readPos :: es) s [(.ok, s.position.setWidth 32)] es
      (respond .ok (s.position.setWidth 32) (setInputs inp s)) :=
  runsTo_commandInput (i := .readPos) nofun hs (exec_readPos _) es

theorem commandsOf_edges (inp : Inputs) (xs : List (Bool × Bool)) : commandsOf (edges inp xs) = [] := by
  induction xs with
  | nil => rfl
  | cons x xs ih => exact ih

/-- Each move of a run is one of -1, 0 and +1 (R114). -/
theorem movesOf_bound (invert : Bool) (prev : Code) (xs : List (Bool × Bool)) :
    ∀ m ∈ movesOf invert prev xs, -1 ≤ m ∧ m ≤ 1 := by
  induction xs generalizing prev with
  | nil => simp [movesOf]
  | cons x xs ih => exact List.forall_mem_cons.2 ⟨pulseMove_bound invert prev _, ih _⟩

/-- Moves too few of either sign to bring the phase to ±4 make no click, in whatever order they come. -/
theorem clickSum_of_few {g : Int → Int} (hg : g 0 = 0) {ms : List Int} (hms : ∀ m ∈ ms, -1 ≤ m ∧ m ≤ 1) {q : Int}
    (hlo : -4 < q - ms.count (-1)) (hhi : q + ms.count 1 < 4) : clickSum g q ms = 0 := by
  induction ms generalizing q with
  | nil => rfl
  | cons m ms ih =>
    obtain ⟨hm, hms⟩ := List.forall_mem_cons.1 hms
    have hcount : q + m - ms.count (-1) ≥ q - (m :: ms).count (-1) ∧ q + m + ms.count 1 ≤ q + (m :: ms).count 1 := by
      obtain rfl | rfl | rfl : m = -1 ∨ m = 0 ∨ m = 1 := by omega
      all_goals simp <;> omega
    have hclick : clickOf (q + m) = 0 := clickOf_eq_zero (by omega) (by omega)
    rw [clickSum, hclick, hg, mul_zero, sub_zero, zero_add]
    exact ih hms (by omega) (by omega)

/-- The net clicks are at most as many as the clicks of either sign. -/
theorem abs_clickSum_le (q : Int) (ms : List Int) : |clickSum id q ms| ≤ clickSum abs q ms := by
  induction ms generalizing q with
  | nil => exact abs_zero.le
  | cons m ms ih => exact (abs_add_le _ _).trans (add_le_add_right (ih _) _)

/-- Decoder steps without a net click answer nothing and leave the position. -/
theorem runsTo_edges {s : State} (hs : refusalOf s = none) (inp : Inputs) {xs : List (Bool × Bool)}
    (hnet : clickSum id s.pulses.toInt (movesOf s.params.invert s.prev xs) = 0) (es : List StepInput) :
    ∃ t, RunsTo (edges inp xs ++ es) s [] es t ∧ t.position = s.position := by
  obtain ⟨t, hrun, hreplays⟩ := runOn_replays hs (agent_of_mem_edges (inp := inp) (xs := xs))
  rw [sumRun_clicksMade_edges hs, hnet] at hreplays
  obtain ⟨_, hposition, _⟩ := hreplays.of_no_click (range_of_admitted hs).position
  obtain ⟨u, hu, _⟩ := runsTo_end hs (commandsOf_edges inp xs)
  obtain ⟨hend, hanswers⟩ := hu.finished
  obtain rfl : u = t := by simpa [hend] using hrun
  exact ⟨u, hanswers ▸ runsTo_append hrun hu.admitted es, hposition⟩

/-- Settles O27: from accumulator 0, either premise leaves no net click, so the position stays until it is read. -/
theorem resetThenReadAnswersTheSetPosition : Obligations.ResetThenReadAnswersTheSetPosition := by
  intro s p inp samples hs hp hfew
  have hreset := runsTo_resetPos hp inp hs (edges inp samples ++ [commandInput inp .readPos])
  have hnet : clickSum id 0 (movesOf s.params.invert s.prev samples) = 0 := by
    rcases hfew with hnone | ⟨hup, hdown⟩
    · have hcounted : clickSum abs 0 (movesOf s.params.invert s.prev samples) = 0 :=
        (sumRun_clicksCounted_edges hreset.admitted inp samples).symm.trans
          (hnone _ (stepOn_commandInput (i := .resetPos p) nofun hs (exec_resetPos_of_lt hp _)))
      exact abs_nonpos_iff.1 ((abs_clickSum_le 0 _).trans hcounted.le)
    · exact clickSum_of_few rfl (movesOf_bound _ _ _) (by omega) (by omega)
  obtain ⟨t, hedges, hposition⟩ := runsTo_edges hreset.admitted inp hnet [commandInput inp .readPos]
  obtain ⟨_, hanswers⟩ := ((hreset.trans hedges).trans (runsTo_readPos inp hedges.admitted [])).finished
  rw [respond_position, setPosition_position] at hposition
  rw [hposition, setWidth_position hp] at hanswers
  exact hanswers

/-! ## The wire commands `reset` and `ping` (44_host_protocol.md R231, R232) -/

/-- A field in the domain names its position; an absent one names 0 (R231). -/
theorem positionOfField_of_inDomain {field : Option FieldValue} {n : Int} (hn : 0 ≤ n ∧ n < 100)
    (hfield : field = some (.integer n) ∨ field = none ∧ n = 0) :
    ∃ p : Arg, positionOfField field = some p ∧ p.toNat < 100 ∧ p.toNat = n.toNat := by
  rcases hfield with rfl | ⟨rfl, rfl⟩
  · have hp : (BitVec.ofInt 8 n).toNat = n.toNat := by
      rw [BitVec.toNat_ofInt]
      omega
    exact ⟨BitVec.ofInt 8 n, by simp [positionOfField, hn], by omega, hp⟩
  · exact ⟨0, rfl, by decide, rfl⟩

/-- A field out of the domain names none (R231, D35). -/
theorem positionOfField_eq_none {field : Option FieldValue}
    (hfield : (∃ n : Int, ¬ (0 ≤ n ∧ n < 100) ∧ field = some (.integer n)) ∨ field = some .notInteger) :
    positionOfField field = none := by
  rcases hfield with ⟨n, hn, rfl⟩ | rfl
  · exact if_neg hn
  · rfl

/-- Settles O51: the `reset` is one `RESET_POS`, the `ping` one `READ_POS` from the state it leaves. -/
theorem resetThenPingReportsThePosition : Obligations.ResetThenPingReportsThePosition := by
  intro s inp field hs
  refine ⟨fun n hn hfield => ?_, fun hfield => ?_⟩
  · obtain ⟨p, hfieldPos, hp, hpn⟩ := positionOfField_of_inDomain hn hfield
    have hexpand : expand s.params (.reset field) = [.resetPos p] := by simp [expand, hfieldPos]
    have hreset := runsTo_resetPos hp inp hs []
    obtain ⟨hrun, hanswers⟩ := hreset.finished
    obtain ⟨_, hping⟩ := (runsTo_readPos inp hreset.admitted []).finished
    rw [respond_position, setPosition_position, setWidth_position hp] at hping
    rw [hexpand, ← hpn, ← positionOf_setWidth hp]
    refine ⟨congrArg (reply s.params (.reset field)) hanswers, _, hrun, ?_⟩
    exact congrArg (reply s.params .ping) hping
  · exact ⟨by simp [expand, positionOfField_eq_none hfield], rfl⟩

end Sys2Proof.Machine

/-!
PROOFS. 42_debounce_scan.md: the lane and the scan (R171 to R175, R177), the laws of many scans: alternation (R176), flicker
(R178), bounce (R180), the time modulo 2^32 (70_reset_and_hazards.md R296), the refinement of the lanes by a run, and the
button messages (44_host_protocol.md R238).
-/

namespace Sys2Proof.Machine

/-! ## One lane at one scan (R172, R173, R177) -/

/-- The edge condition of a lane (R177). -/
theorem laneEdge_iff (t : Millis) (r : Bool) (sl : Slot) :
    laneEdge t r sl = true ↔ r = sl.raw ∧ 50 ≤ elapsed t sl ∧ sl.raw ≠ sl.stable := by
  rcases laneSlot_cases t r sl with ⟨hr, _, hedge⟩ | ⟨_, hwait, _, hedge⟩ | ⟨hr, helapsed, hne, _, hedge⟩
  · simp [hedge, hr]
  · rw [hedge]
    rcases hwait with hearly | hsame
    · simp [hearly]
    · simp [hsame]
  · exact iff_of_true hedge ⟨hr, helapsed, hne⟩

/-- What a lane's scan writes, field by field (R172, R173). -/
theorem laneSlot_eq (t : Millis) (r : Bool) (sl : Slot) :
    laneSlot t r sl =
      { sl with raw := r, ts := if r = sl.raw then sl.ts else t, stable := if laneEdge t r sl then r else sl.stable } := by
  rcases laneSlot_cases t r sl with ⟨hr, hslot, hedge⟩ | ⟨rfl, _, hslot, hedge⟩ | ⟨rfl, _, _, hslot, hedge⟩
  · simp [hslot, hedge, hr]
  · simp [hslot, hedge]
  · simp [hslot, hedge]

/-- A changed reading re-arms the lane and makes no edge (R172). -/
theorem lane_of_change {r : Bool} {sl : Slot} (h : r ≠ sl.raw) (t : Millis) :
    laneEdge t r sl = false ∧ laneSlot t r sl = { sl with raw := r, ts := t } := by
  have hedge : laneEdge t r sl = false := by simp [Bool.eq_false_iff, laneEdge_iff, h]
  exact ⟨hedge, by simp [laneSlot_eq, hedge, h]⟩

/-- A lane's edge depends on its `raw`, `ts` and `stable` alone (R175). -/
theorem laneEdge_congr (t : Millis) (r : Bool) {sl sl' : Slot} (hraw : sl.raw = sl'.raw) (hts : sl.ts = sl'.ts)
    (hstable : sl.stable = sl'.stable) : laneEdge t r sl = laneEdge t r sl' := by
  rw [Bool.eq_iff_iff, laneEdge_iff, laneEdge_iff, elapsed, elapsed, hraw, hts, hstable]

/-- A scan at an edge reports the opposite of the stable state before it (R176). -/
theorem laneSlot_stable_of_edge {t : Millis} {r : Bool} {sl : Slot} (h : laneEdge t r sl = true) :
    (laneSlot t r sl).stable = !sl.stable := by
  obtain ⟨hr, _, hne⟩ := (laneEdge_iff t r sl).1 h
  rw [laneSlot_eq, if_pos h, hr]
  exact Bool.eq_not.2 hne

/-! ## One scan (R174, R175, R177) -/

/-- `SCAN` answers of the slots as they were and moves each of them (R174). -/
theorem exec_scan (s : State) :
    exec .scan s = .next (respond .ok (scanResult s.inputs s.slots) (mapSlots (scanSlot s.inputs) s)) := rfl

/-- An edge bit of the answer is its lane's (R174). -/
theorem scanResult_edge (inp : Inputs) (slots : Vector Slot 12) (i : Fin 12) :
    (scanResult inp slots).getLsbD i.val = scanEdge inp slots[i] := by
  rw [scanResult, scanWord_low, slotBits_getLsbD]

/-- A stable bit of the answer is its lane's after the scan (R174). -/
theorem scanResult_stable (inp : Inputs) (slots : Vector Slot 12) (i : Fin 12) :
    (scanResult inp slots).getLsbD (12 + i.val) = (scanSlot inp slots[i]).stable := by
  rw [scanResult, scanWord_high, slotBits_getLsbD]

/-- What `SCAN` does to a slot and answers of it. -/
theorem exec_scan_inv {s t : State} (h : exec .scan s = .next t) (i : Fin 12) :
    t.slots[i] = scanSlot s.inputs s.slots[i] ∧ t.result.getLsbD i.val = scanEdge s.inputs s.slots[i] ∧
      t.result.getLsbD (12 + i.val) = t.slots[i].stable := by
  cases (exec_scan s).symm.trans h
  have hslot := mapSlots_getElem (scanSlot s.inputs) s i
  exact ⟨hslot, scanResult_edge s.inputs s.slots i,
    (scanResult_stable s.inputs s.slots i).trans (congrArg Slot.stable hslot.symm)⟩

/-- An enabled slot moves as its lane does on the level of its pin (R174). -/
theorem scanSlot_of_enabled {sl : Slot} (h : sl.enabled = true) (inp : Inputs) :
    scanSlot inp sl = laneSlot inp.now (pressed (sampleBtn inp sl.pin)) sl := if_pos h

theorem scanEdge_of_enabled {sl : Slot} (h : sl.enabled = true) (inp : Inputs) :
    scanEdge inp sl = laneEdge inp.now (pressed (sampleBtn inp sl.pin)) sl := if_pos h

/-- A scan passes over a slot that is not enabled (R174). -/
theorem scanSlot_of_disabled {sl : Slot} (h : sl.enabled = false) (inp : Inputs) : scanSlot inp sl = sl := by
  simp [scanSlot, h]

theorem scanEdge_of_disabled {sl : Slot} (h : sl.enabled = false) (inp : Inputs) : scanEdge inp sl = false := by
  simp [scanEdge, h]

/-- A slot makes an edge where it is enabled and its re-armed lane accepts (R174). -/
theorem scanEdge_iff (inp : Inputs) (sl : Slot) :
    scanEdge inp sl = true ↔
      sl.enabled = true ∧ accepts inp.now (rearm inp.now (pressed (sampleBtn inp sl.pin)) sl) = true := by
  simp [scanEdge, laneEdge]

/-- At an edge the stable state follows the re-armed reading (R173). -/
theorem scanSlot_of_edge {inp : Inputs} {sl : Slot} (h : scanEdge inp sl = true) :
    scanSlot inp sl =
      { rearm inp.now (pressed (sampleBtn inp sl.pin)) sl with
        stable := (rearm inp.now (pressed (sampleBtn inp sl.pin)) sl).raw } := by
  obtain ⟨henabled, haccepts⟩ := (scanEdge_iff inp sl).1 h
  rw [scanSlot_of_enabled henabled, laneSlot, settle, if_pos haccepts]

/-- Without an edge an enabled slot only re-arms (R172). -/
theorem scanSlot_of_no_edge {inp : Inputs} {sl : Slot} (henabled : sl.enabled = true) (h : ¬ scanEdge inp sl = true) :
    scanSlot inp sl = rearm inp.now (pressed (sampleBtn inp sl.pin)) sl := by
  rw [scanEdge_of_enabled henabled] at h
  rw [scanSlot_of_enabled henabled]
  exact if_neg h

/-- The answer has no bit above the stable bits (R87). -/
theorem scanWord_top (st ed : BitVec 12) : (scanWord st ed).extractLsb' 24 8 = 0 := by
  apply BitVec.eq_of_getLsbD_eq
  intro i hi
  have hed : ¬ 24 + i < 12 := by omega
  have hst : ¬ 24 + i - 12 < 12 := by omega
  simp only [scanWord, BitVec.getLsbD_extractLsb', BitVec.getLsbD_append]
  simp [hed, hst]

/-- Settles O30: an enabled slot re-arms and then accepts or not, as the rule's pseudocode does. -/
theorem scanRunsEveryEnabledLane : Obligations.ScanRunsEveryEnabledLane := by
  refine ⟨decode_encode .scan, fun s => ⟨_, exec_scan s, rfl, scanWord_top _ _, fun i => ?_⟩⟩
  obtain ⟨hslot, hedge, hstable⟩ := exec_scan_inv (exec_scan s) i
  intro now r armed edge
  have harmed : rearm now r s.slots[i] = armed := ite_not ..
  have hedge_iff : scanEdge s.inputs s.slots[i] = true ↔ edge := by
    rw [scanEdge_iff, accepts_iff]
    exact harmed ▸ Iff.rfl
  refine ⟨fun hoff => hslot.trans (scanSlot_of_disabled hoff _), fun _ he => ?_, fun hon he => ?_, ?_, hstable⟩
  · rw [hslot, scanSlot_of_edge (hedge_iff.2 he), ← harmed]
    rfl
  · rw [hslot, scanSlot_of_no_edge hon (hedge_iff.not.2 he), ← harmed]
    rfl
  · rw [hedge, hedge_iff]

/-- Settles O32: the edges agree by `laneEdge_congr`, the slots by `laneSlot_eq`. -/
theorem lanesAreIndependent : Obligations.LanesAreIndependent := by
  intro s u t v i j ht hv henabled hraw hts hstable hnow hlevel
  obtain ⟨hslot, hedge, _⟩ := exec_scan_inv ht i
  obtain ⟨hslot', hedge', _⟩ := exec_scan_inv hv j
  rw [hslot, hslot', hedge, hedge']
  cases hon : u.slots[j].enabled with
  | false =>
    rw [hon] at henabled
    simp only [scanSlot_of_disabled, scanEdge_of_disabled, henabled, hon, hraw, hts, hstable, and_self]
  | true =>
    rw [hon] at henabled
    have hsample : sampleBtn s.inputs s.slots[i].pin = sampleBtn u.inputs u.slots[j].pin := hlevel
    simp only [scanSlot_of_enabled, scanEdge_of_enabled, henabled, hon, laneSlot_eq, hnow, hsample, hraw, hts, hstable,
      laneEdge_congr _ _ hraw hts hstable, and_self]

/-- Settles O33: the lane's edge condition at the level of the slot's pin. -/
theorem edgeCondition : Obligations.EdgeCondition := by
  intro s t i ht henabled
  obtain ⟨_, hedge, _⟩ := exec_scan_inv ht i
  rw [hedge, scanEdge_of_enabled henabled]
  exact laneEdge_iff ..

/-- An update that changes no slot changes nothing. -/
theorem mapSlots_eq_self {f : Slot → Slot} {s : State} (h : ∀ i : Fin 12, f s.slots[i] = s.slots[i]) :
    mapSlots f s = s := by
  have hslots : (Vector.ofFn fun i : Fin 12 => f s.slots[i]) = s.slots := by
    ext1 i hi
    simpa using h ⟨i, hi⟩
  rw [mapSlots, hslots]

/-- The answer to a scan of unconfigured slots (R174). -/
theorem scanResult_of_unconfigured (inp : Inputs) {slots : Vector Slot 12}
    (h : ∀ i : Fin 12, slots[i] = Slot.unconfigured) : scanResult inp slots = 0 := by
  simp only [scanResult, h, scanSlot_unconfigured, scanEdge_of_disabled (sl := Slot.unconfigured) rfl]
  rfl

/-- Settles O31: with `count` 0 every slot is unconfigured, and a scan passes over it. -/
theorem scanOfAnEmptyArrayHasNoEffect : Obligations.ScanOfAnEmptyArrayHasNoEffect := by
  intro s hslots hcount
  have hnone : ∀ i : Fin 12, s.slots[i] = Slot.unconfigured := by
    intro i
    obtain ⟨_, _, hunconfigured⟩ := hslots i
    exact hunconfigured (by simp [hcount])
  have hkept : mapSlots (scanSlot s.inputs) s = s :=
    mapSlots_eq_self fun i => by rw [hnone i, scanSlot_unconfigured]
  rw [exec_scan, hkept, scanResult_of_unconfigured s.inputs hnone]
  rfl

/-- Settles O54: the bits that the host reads are the edge and stable bits of the answer. -/
theorem buttonMessagesAreTheEdges : Obligations.ButtonMessagesAreTheEdges := by
  intro s t ht
  refine List.filterMap_congr fun i _ => ?_
  obtain ⟨_, hedge, hstable⟩ := exec_scan_inv ht i
  simp only [hedge, hstable]

/-! ## The elapsed time (R173, R296) -/

/-- Up to 2^32 ms the elapsed time is the true one (10_state.md R21(c)). -/
theorem elapsed_stamp {sl : Slot} {tc : Nat} (hts : sl.ts = stamp tc) {d : Nat} (hd : d < 2 ^ 32) :
    elapsed (stamp (tc + d)) sl = d := by
  simp only [elapsed, hts, stamp, BitVec.toNat_sub, BitVec.toNat_ofNat]
  omega

/-- `now` wraps after 2^32 ms (R296). -/
theorem stamp_add_wrap (t k : Nat) : stamp (t + 2 ^ 32 + k) = stamp (t + k) := by
  apply BitVec.eq_of_toNat_eq
  simp only [stamp, BitVec.toNat_ofNat]
  omega

/-- The edge condition on an unchanged reading, in true time (R177). -/
theorem laneEdge_stamp {sl : Slot} {tc : Nat} (hts : sl.ts = stamp tc) {d : Nat} (hd : d < 2 ^ 32) :
    laneEdge (stamp (tc + d)) sl.raw sl = true ↔ 50 ≤ d ∧ sl.raw ≠ sl.stable := by
  rw [laneEdge_iff, elapsed_stamp hts hd]
  exact and_iff_right rfl

/-- Less than 50 ms after the last change an unchanged reading does nothing (R173). -/
theorem lane_early {sl : Slot} {tc : Nat} (hts : sl.ts = stamp tc) {d : Nat} (hd : d < 50) :
    laneEdge (stamp (tc + d)) sl.raw sl = false ∧ laneSlot (stamp (tc + d)) sl.raw sl = sl := by
  have hnone : laneEdge (stamp (tc + d)) sl.raw sl = false := by
    rw [Bool.eq_false_iff, ne_eq, laneEdge_stamp hts (by omega)]
    omega
  exact ⟨hnone, by simp [laneSlot_eq, hnone]⟩

/-- Settles O38: the wrapped scan is the one at `tc + k`, too early for an edge. -/
theorem elapsedTimeWraps : Obligations.ElapsedTimeWraps := by
  intro sl tc hts
  refine ⟨fun k hk => ?_, fun d hd => laneEdge_stamp hts hd⟩
  rw [stamp_add_wrap]
  exact lane_early hts hk

/-! ## A lane over many scans (R176, R178, R180) -/

/-- Settles O34, by induction on the scans: each edge flips the stable state, no other scan does. -/
theorem edgesAlternate : Obligations.EdgesAlternate := by
  intro xs
  induction xs with
  | nil => exact fun sl => rfl
  | cons x xs ih =>
    intro sl
    obtain ⟨t, r⟩ := x
    rw [laneReports, laneEdges, ih]
    cases hedge : laneEdge t r sl with
    | true => simp [laneSlot_stable_of_edge hedge, alternating]
    | false => simp [laneSlot_eq, hedge]

theorem laneRun_append (xs ys : List (Millis × Bool)) (sl : Slot) :
    laneRun (xs ++ ys) sl = laneRun ys (laneRun xs sl) := by
  induction xs generalizing sl with
  | nil => rfl
  | cons x xs ih => exact ih _

theorem laneEdges_append (xs ys : List (Millis × Bool)) (sl : Slot) :
    laneEdges (xs ++ ys) sl = laneEdges xs sl ++ laneEdges ys (laneRun xs sl) := by
  induction xs generalizing sl with
  | nil => rfl
  | cons x xs ih => exact congrArg (List.cons _) (ih _)

theorem stamped_append (xs ys : List (Nat × Bool)) : stamped (xs ++ ys) = stamped xs ++ stamped ys := List.map_append

theorem laneRun_stamped_cons (t : Nat) (r : Bool) (xs : List (Nat × Bool)) (sl : Slot) :
    laneRun (stamped ((t, r) :: xs)) sl = laneRun (stamped xs) (laneSlot (stamp t) r sl) := rfl

theorem laneEdges_stamped_cons (t : Nat) (r : Bool) (xs : List (Nat × Bool)) (sl : Slot) :
    laneEdges (stamped ((t, r) :: xs)) sl =
      laneEdge (stamp t) r sl :: laneEdges (stamped xs) (laneSlot (stamp t) r sl) := rfl

/-- While no scan comes 50 ms or more after the last change, a lane makes no edge and follows the reading (R178, R180). -/
theorem lane_of_flickers {xs : List (Nat × Bool)} {sl : Slot} {tc tk : Nat} {sf : Bool} (hts : sl.ts = stamp tc)
    (h : flickers sl.raw tc xs = some (sf, tk)) :
    laneEdges (stamped xs) sl = List.replicate xs.length false ∧
      laneRun (stamped xs) sl = { sl with raw := sf, ts := stamp tk } := by
  induction xs generalizing sl tc with
  | nil =>
    cases h
    exact ⟨rfl, by rw [← hts]; rfl⟩
  | cons x xs ih =>
    obtain ⟨t, r⟩ := x
    rw [flickers] at h
    rw [laneEdges_stamped_cons, laneRun_stamped_cons, List.length_cons, List.replicate_succ]
    split_ifs at h with hgap hr
    · obtain ⟨hle, hlt⟩ := hgap
      obtain ⟨d, rfl⟩ := Nat.exists_eq_add_of_le hle
      subst hr
      obtain ⟨hedge, hslot⟩ := lane_early hts (d := d) (by omega)
      obtain ⟨hedges, hrun⟩ := ih hts h
      rw [hslot, hedge, hedges]
      exact ⟨rfl, hrun⟩
    · obtain ⟨hedge, hslot⟩ := lane_of_change hr (stamp t)
      obtain ⟨hedges, hrun⟩ := ih (sl := { sl with raw := r, ts := stamp t }) rfl h
      rw [hslot, hedge, hedges]
      exact ⟨rfl, hrun⟩

/-- Settles O37: bounce is flicker that goes on. -/
theorem continuousBouncePostponesForever : Obligations.ContinuousBouncePostponesForever := by
  intro sl tc xs hts hbounce
  obtain ⟨_, h⟩ := Option.isSome_iff_exists.1 hbounce
  exact (lane_of_flickers hts h).1

/-- A lane at rest on an unchanged reading makes no edge and stays as it is. -/
theorem lane_stays_at_rest {ys : List (Nat × Bool)} {sl : Slot} (hrest : sl.raw = sl.stable)
    (hys : ∀ y ∈ ys, y.2 = sl.raw) :
    laneEdges (stamped ys) sl = ys.map (fun _ => false) ∧ laneRun (stamped ys) sl = sl := by
  induction ys with
  | nil => exact ⟨rfl, rfl⟩
  | cons y ys ih =>
    obtain ⟨t, r⟩ := y
    obtain ⟨hr, hys⟩ := List.forall_mem_cons.1 hys
    obtain ⟨hedge, hslot⟩ := laneSlot_at_rest hrest (stamp t) r
    rw [if_pos hr] at hslot
    obtain ⟨hedges, hrun⟩ := ih hys
    rw [laneEdges_stamped_cons, laneRun_stamped_cons, hedge, hslot, hedges, hrun]
    exact ⟨rfl, rfl⟩

/-- A lane whose reading differs from its stable state since `tk` and changes no more makes one edge, at the first scan 50 ms
or more after `tk`; `t` is the time of the scan before these. -/
theorem lane_settles {ys : List (Nat × Bool)} {sl : Slot} {tk t : Nat} (hts : sl.ts = stamp tk)
    (hne : sl.raw ≠ sl.stable) (htk : tk ≤ t) (ht : t < tk + 50) (hys : ∀ y ∈ ys, y.2 = sl.raw)
    (hscans : scansFrom t (ys.map (·.1)) = true) :
    laneEdges (stamped ys) sl = markFirst (fun y => decide (tk + 50 ≤ y.1)) ys ∧
      laneRun (stamped ys) sl =
        { sl with stable := if ys.any (fun y => decide (tk + 50 ≤ y.1)) then sl.raw else sl.stable } := by
  induction ys generalizing t with
  | nil => exact ⟨rfl, rfl⟩
  | cons y ys ih =>
    obtain ⟨u, r⟩ := y
    obtain ⟨rfl, hreadings⟩ := List.forall_mem_cons.1 hys
    simp only [List.map_cons, scansFrom, Bool.and_eq_true, decide_eq_true_eq] at hscans
    obtain ⟨⟨htu, hgap⟩, hscans⟩ := hscans
    obtain ⟨d, rfl⟩ := Nat.exists_eq_add_of_le (htk.trans htu)
    rw [laneEdges_stamped_cons, laneRun_stamped_cons]
    rcases Nat.lt_or_ge d 50 with hd | hd
    · obtain ⟨hedges, hrun⟩ := ih (t := tk + d) (by omega) (by omega) hreadings hscans
      obtain ⟨hedge, hslot⟩ := lane_early hts hd
      have hearly : decide (tk + 50 ≤ tk + d) = false := by simpa using hd
      rw [List.any_cons, hearly, Bool.false_or, ← hrun, hedge, hslot, hedges, markFirst, hearly]
      exact ⟨rfl, rfl⟩
    · obtain ⟨hedges, hrun⟩ := lane_stays_at_rest (sl := { sl with stable := sl.raw }) rfl hreadings
      have hedge : laneEdge (stamp (tk + d)) sl.raw sl = true := (laneEdge_stamp hts (by omega)).2 ⟨hd, hne⟩
      simp [laneSlot_eq, hedge, hedges, hrun, markFirst, hd]

/-- Settles O36: the first change arms the lane, the flicker ends in `sf` since `tk`, and the later scans settle it. -/
theorem flickerLaw : Obligations.FlickerLaw := by
  intro sl t1 tk xs ys sf hrest hflicker hys hscans
  have hchange : ¬ (!sl.stable) = sl.raw := by simp [hrest]
  obtain ⟨hfirst, harmed⟩ := laneSlot_at_rest hrest (stamp t1) (!sl.stable)
  rw [if_neg hchange] at harmed
  obtain ⟨hedges, hrun⟩ := lane_of_flickers (sl := { sl with raw := !sl.stable, ts := stamp t1 }) rfl hflicker
  rw [List.cons_append, laneEdges_stamped_cons, laneRun_stamped_cons, hfirst, harmed, stamped_append, laneEdges_append,
    laneRun_append, hedges, hrun]
  by_cases hsf : sf = sl.stable
  · obtain ⟨hlater, hend⟩ := lane_stays_at_rest (sl := { sl with raw := sf, ts := stamp tk }) hsf hys
    rw [hlater, hend]
    simp [hsf, List.replicate_succ]
  · obtain ⟨hlater, hend⟩ :=
      lane_settles (sl := { sl with raw := sf, ts := stamp tk }) rfl hsf le_rfl (by omega) hys hscans
    rw [hlater, hend]
    simp [hsf, List.replicate_succ]

/-! ## A run and its lanes (R174, R175, R181) -/

/-- An effect other than `CFG_CLEAR`'s keeps a slot configured, and only a scan writes it. -/
theorem Effect.keeps_configured {i : Instr} {s t : State} (h : Effect i s t) (hclear : i ≠ .cfgClear)
    (hcount : s.count.toNat ≤ 12) {k : Fin 12} (hk : k.val < s.count.toNat) :
    k.val < t.count.toNat ∧ (i ≠ .scan → t.slots[k] = s.slots[k]) := by
  cases h with
  | clear h => exact absurd h hclear
  | bind p =>
    have hadd := count_add_one_toNat hcount
    refine ⟨by simp only [respond_count, appendSlot_count]; omega, fun _ => ?_⟩
    exact (appendSlot_getElem _ s k).trans (if_neg (by omega))
  | scan h => exact ⟨hk, absurd h⟩
  | answer | drain | position | edge => exact ⟨hk, fun _ => rfl⟩

/-- What a step does to a configured slot, and answers of it, other than by `CFG_CLEAR`: its lane's move if the step is a
scan, else nothing. -/
theorem stepOn_lane {e : StepInput} {s t : State} (hs : Inv s) (h : stepOn e s = .next t)
    (hclear : instrOf e ≠ some .cfgClear) {k : Fin 12} (hk : k.val < s.count.toNat) :
    k.val < t.count.toNat ∧
      (isScan e = true →
        t.slots[k] = laneSlot e.inputs.now (pressed (sampleBtn e.inputs s.slots[k].pin)) s.slots[k] ∧
        t.result.getLsbD k.val = laneEdge e.inputs.now (pressed (sampleBtn e.inputs s.slots[k].pin)) s.slots[k]) ∧
      (isScan e = false → t.slots[k] = s.slots[k]) := by
  obtain ⟨_, ⟨i, hd, hx⟩ | ⟨err, hd, rfl⟩⟩ := stepOn_next h
  · have hi : instrOf e = some i := instrOf_of_decode_ok hd
    obtain ⟨hcount, hkept⟩ := (exec_inv hx).keeps_configured (by simpa [hi] using hclear) hs.range.count hk
    refine ⟨hcount, fun hscan => ?_, fun hscan => hkept (by simpa [isScan, hi] using hscan)⟩
    obtain rfl : i = .scan := by simpa [isScan, hi] using hscan
    obtain ⟨hconfigured, _⟩ := hs.slots k
    have henabled : s.slots[k].enabled = true := hconfigured.1 hk
    obtain ⟨hslot, hedge, _⟩ := exec_scan_inv hx k
    exact ⟨hslot.trans (scanSlot_of_enabled henabled _), hedge.trans (scanEdge_of_enabled henabled _)⟩
  · have hnone : isScan e = false := by simp [isScan, instrOf, hd, Except.toOption]
    exact ⟨hk, by simp [hnone], fun _ => rfl⟩

/-- A run's answers begin with its first step's, where they count (70_reset_and_hazards.md R294). -/
theorem answersOf_cons_of_next (keep : StepInput → Bool) {e : StepInput} {s u : State} (h : stepOn e s = .next u)
    (es : List StepInput) :
    answersOf keep (e :: es) s = if keep e then (u.resp, u.result) :: answersOf keep es u else answersOf keep es u := by
  rw [answersOf, h]

/-- A run's samples of a pin begin with its first step's, where that is a scan. -/
theorem scanSamples_cons (p : Pin) (e : StepInput) (es : List StepInput) :
    scanSamples p (e :: es) =
      if isScan e then (e.inputs.now, pressed (sampleBtn e.inputs p)) :: scanSamples p es else scanSamples p es := by
  rw [scanSamples, List.filter_cons]
  split <;> rfl

/-- Settles O39, by induction on the run: a scan moves the slot as its lane, and no other step touches it. -/
theorem runsRefineTheLanes : Obligations.RunsRefineTheLanes := by
  intro es
  induction es with
  | nil =>
    intro s t i _ h _ _
    cases h
    exact ⟨rfl, rfl⟩
  | cons e es ih =>
    intro s t i hs h hi hclear
    obtain ⟨hclear, hrest⟩ := List.forall_mem_cons.1 hclear
    obtain ⟨u, hu, ht⟩ := runOn_cons_next h
    obtain ⟨hcount, hscan, hkept⟩ := stepOn_lane hs hu hclear hi
    obtain ⟨hslot, hedges⟩ := ih u t i (stepOn_keeps_inv hu hs) ht hcount hrest
    rw [answersOf_cons_of_next _ hu, scanSamples_cons]
    cases he : isScan e with
    | false =>
      rw [hkept he] at hslot hedges
      exact ⟨hslot, hedges⟩
    | true =>
      obtain ⟨hmoved, hedge⟩ := hscan he
      have hpin : u.slots[i].pin = s.slots[i].pin := by rw [hmoved, laneSlot_eq]
      rw [hpin, hmoved] at hslot hedges
      exact ⟨hslot, congrArg₂ List.cons hedge hedges⟩

end Sys2Proof.Machine

/-!
PROOFS. 43_slot_config.md: `CFG_ADD` and its checks (R201 to R203, R205), the full array (R204), and the other slot and status
commands (R200, R206 to R209).
-/

namespace Sys2Proof.Machine

/-! ## `CFG_ADD` (R201 to R203, R205) -/

theorem validPin_iff (P : Params) (p : Pin) : validPin P p = true ↔ P.pinMin ≤ p.toNat ∧ p.toNat ≤ P.pinMax := by
  simp [validPin]

theorem reservedPin_iff (P : Params) (p : Pin) : reservedPin P p = true ↔ p = 0 ∨ p = 1 ∨ p ∈ P.ledPins := by
  simp [reservedPin, or_assoc]

theorem indexWord_eq_setWidth (c : BitVec 4) : indexWord c = c.setWidth 32 := by
  rw [BitVec.setWidth_eq_append (by decide)]
  rfl

/-- A pin that a check refuses is answered with the check's reason. -/
theorem exec_cfgAdd_of_refused {p : Pin} {s : State} {reason : Word}
    (h : bindRefusal s.params s.count p = some reason) : exec (.cfgAdd p) s = .next (respond .rejected reason s) := by
  simp only [exec, execCfgAdd, h]

/-- A pin that no check refuses is bound to the slot at `count`, and that slot's index answered. -/
theorem exec_cfgAdd_of_bound {p : Pin} {s : State} (h : bindRefusal s.params s.count p = none) :
    exec (.cfgAdd p) s =
      .next (respond .ok (s.count.setWidth 32) (appendSlot (boundSlot p s.inputs.now) s)) := by
  simp only [exec, execCfgAdd, h, indexWord_eq_setWidth]

/-- Settles O42, by the four outcomes of the checks: each refusal writes the response alone, and a bound pin takes the slot
at `count`. -/
theorem cfgAddBindsOrRejects : Obligations.CfgAddBindsOrRejects := by
  intro p s
  refine ⟨decode_eq_ok_iff.2 (congrArg PortWord.command (commandWord_eq_or 7 p)), fun hcount => ?_⟩
  rcases bindRefusal_cases s.params s.count p with
    ⟨hfull, hb⟩ | ⟨hfree, hrange, hb⟩ | ⟨hfree, hrange, hreserved, hb⟩ | ⟨hfree, hrange, hreserved, hb⟩
  · refine ⟨_, exec_cfgAdd_of_refused hb, ?_⟩
    rw [if_pos hfull]
    rfl
  · rw [← Bool.not_eq_true, validPin_iff] at hrange
    refine ⟨_, exec_cfgAdd_of_refused hb, ?_⟩
    rw [if_neg hfree, if_pos hrange]
    rfl
  · rw [validPin_iff] at hrange
    rw [reservedPin_iff] at hreserved
    refine ⟨_, exec_cfgAdd_of_refused hb, ?_⟩
    rw [if_neg hfree, if_neg (not_not_intro hrange), if_pos hreserved]
    rfl
  · rw [validPin_iff] at hrange
    rw [← Bool.not_eq_true, reservedPin_iff] at hreserved
    refine ⟨_, exec_cfgAdd_of_bound hb, ?_⟩
    rw [if_neg hfree, if_neg (not_not_intro hrange), if_neg hreserved]
    refine ⟨rfl, count_add_one_toNat hcount, fun i => ?_⟩
    simp only [eq_comm (a := i.val)]
    exact appendSlot_getElem (boundSlot p s.inputs.now) s i

/-! ## The full array (R204) -/

/-- The array is full before the pin is looked at. -/
theorem bindRefusal_of_full {count : BitVec 4} (h : count.toNat = 12) (P : Params) (p : Pin) :
    bindRefusal P count p = some reasonFull := if_pos h

/-- Only `CFG_CLEAR` empties a full array. -/
theorem Effect.keeps_full {i : Instr} {s t : State} (h : Effect i s t) (hclear : i ≠ .cfgClear)
    (hfull : s.count.toNat = 12) : t.count.toNat = 12 := by
  cases h with
  | clear h => exact absurd h hclear
  | bind p _ hfree => exact absurd hfull hfree
  | answer | drain | position | scan | edge => exact hfull

/-- The `CFG_ADD` steps of a run. -/
def isCfgAdd (e : StepInput) : Bool :=
  match instrOf e with
  | some (.cfgAdd _) => true
  | _ => false

theorem isCfgAdd_iff {e : StepInput} : isCfgAdd e = true ↔ ∃ p, instrOf e = some (.cfgAdd p) := by
  unfold isCfgAdd
  split
  · next p hp => exact iff_of_true rfl ⟨p, hp⟩
  · next hne => exact iff_of_false Bool.false_ne_true fun ⟨p, hp⟩ => hne p hp

/-- On a full array a step other than `CFG_CLEAR` keeps the count, and a `CFG_ADD` is rejected with reason 1. -/
theorem stepOn_of_full {e : StepInput} {s t : State} (h : stepOn e s = .next t) (hfull : s.count.toNat = 12)
    (hclear : instrOf e ≠ some .cfgClear) :
    t.count.toNat = 12 ∧ (isCfgAdd e = true → (t.resp, t.result) = (.rejected, 1)) := by
  obtain ⟨_, ⟨i, hd, hx⟩ | ⟨err, hd, rfl⟩⟩ := stepOn_next h
  · have hi : instrOf e = some i := instrOf_of_decode_ok hd
    refine ⟨(exec_inv hx).keeps_full (by simpa [hi] using hclear) hfull, fun hadd => ?_⟩
    obtain ⟨p, hp⟩ := isCfgAdd_iff.1 hadd
    obtain rfl : i = .cfgAdd p := Option.some.inj (hi.symm.trans hp)
    cases (exec_cfgAdd_of_refused (s := setInputs e.inputs s) (bindRefusal_of_full hfull _ p)).symm.trans hx
    rfl
  · have hnone : instrOf e = none := by simp [instrOf, hd, Except.toOption]
    exact ⟨hfull, by simp [isCfgAdd_iff, hnone]⟩

/-- A run without `CFG_CLEAR` finds the array full at each step and leaves it full. -/
theorem runOn_of_full {es : List StepInput} {s t : State} (h : runOn es s = .next t) (hfull : s.count.toNat = 12)
    (hclear : ∀ e ∈ es, instrOf e ≠ some .cfgClear) :
    t.count.toNat = 12 ∧ ∀ a ∈ answersOf isCfgAdd es s, a = (.rejected, 1) := by
  induction es generalizing s with
  | nil =>
    cases h
    exact ⟨hfull, nofun⟩
  | cons e es ih =>
    obtain ⟨hfirst, hrest⟩ := List.forall_mem_cons.1 hclear
    obtain ⟨u, hu, ht⟩ := runOn_cons_next h
    obtain ⟨hkept, hanswer⟩ := stepOn_of_full hu hfull hfirst
    obtain ⟨hcount, hanswers⟩ := ih ht hkept hrest
    refine ⟨hcount, ?_⟩
    rw [answersOf_cons_of_next _ hu]
    split
    · next hadd => exact List.forall_mem_cons.2 ⟨hanswer hadd, hanswers⟩
    · exact hanswers

/-- Settles O47, by the induction of `runOn_of_full`. -/
theorem fullArrayRejectsEveryPin : Obligations.FullArrayRejectsEveryPin :=
  fun _ _ _ hfull h hclear => runOn_of_full h hfull hclear

/-! ## `NOP` and `CFG_CLEAR` (R200, R209) -/

/-- Of the words with opcode 0 only `NOP` itself is a command. -/
theorem eq_zero_of_decode_opcode_zero {w : Word} {i : Instr} (hop : opField w = 0) (h : decode (.command w) = .ok i) :
    w = 0 := by
  obtain ⟨hcommand, _, _⟩ := decodeCommand_eq_ok_iff.1 h
  rw [hop] at hcommand
  obtain rfl : Instr.nop = i := Option.some.inj hcommand
  exact (PortWord.command.inj (decode_eq_ok_iff.1 h)).symm

/-- Settles O40: a nonzero word of opcode 0 is of no command. -/
theorem nopOnlyAnswers : Obligations.NopOnlyAnswers :=
  ⟨decode_encode .nop, fun _ => rfl, fun _ inp s hop hne =>
    perform_of_no_command (fun _ h => hne (eq_zero_of_decode_opcode_zero hop h)) inp s⟩

/-- Settles O41: the array after `CFG_CLEAR` is that of `clearSlots`. -/
theorem cfgClearUnconfiguresEverySlot : Obligations.CfgClearUnconfiguresEverySlot :=
  ⟨decode_encode .cfgClear, fun s => ⟨_, rfl, rfl, clearSlots_getElem s⟩⟩

/-! ## The reading commands (R206 to R208) -/

/-- A slot's index as an argument is that slot (30_encoding.md R82). -/
theorem slotArg_of_eq {i : Arg} {k : Fin 12} (h : k.val = i.toNat) : slotArg i = some k := by
  rw [slotArg_of_lt (h ▸ k.isLt)]
  exact congrArg some (Fin.ext h.symm)

theorem exec_readSlot_of_eq {i : Arg} {k : Fin 12} (h : k.val = i.toNat) (s : State) :
    exec (.readSlot i) s = .next (respond .ok (slotWord s.slots[k]) s) := by
  simp only [exec, execReadSlot, slotArg_of_eq h]

theorem exec_readSlot_of_ge {i : Arg} (h : 12 ≤ i.toNat) (s : State) : exec (.readSlot i) s = .next (ignore s) := by
  simp only [exec, execReadSlot, slotArg_of_ge h]

theorem exec_readSlotTs_of_eq {i : Arg} {k : Fin 12} (h : k.val = i.toNat) (s : State) :
    exec (.readSlotTs i) s = .next (respond .ok s.slots[k].ts s) := by
  simp only [exec, execReadSlotTs, slotArg_of_eq h]

theorem exec_readSlotTs_of_ge {i : Arg} (h : 12 ≤ i.toNat) (s : State) : exec (.readSlotTs i) s = .next (ignore s) := by
  simp only [exec, execReadSlotTs, slotArg_of_ge h]

/-- An unconfigured slot reads as `PIN_NONE` with all bits 0 (R206). -/
theorem slotWord_unconfigured : slotWord Slot.unconfigured = 0x000000FF := by decide

theorem statusWord_eq_setWidth (c : BitVec 4) :
    statusWord c = ((12 : BitVec 8) ++ (0 : BitVec 4) ++ c : BitVec 16).setWidth 32 := by
  revert c; decide

/-- Settles O43, by the domain of the index. -/
theorem readSlotAnswersTheRecord : Obligations.ReadSlotAnswersTheRecord := by
  intro i s
  refine ⟨decode_eq_ok_iff.2 (congrArg PortWord.command (commandWord_eq_or 9 i)), fun hi => exec_readSlot_of_ge hi s,
    fun k hk => ⟨exec_readSlot_of_eq hk s, fun hnone => ?_⟩⟩
  rw [exec_readSlot_of_eq hk, hnone, slotWord_unconfigured]
  rfl

/-- Settles O44, by the domain of the index. -/
theorem readSlotTsAnswersTheTimer : Obligations.ReadSlotTsAnswersTheTimer := by
  intro i s
  refine ⟨decode_eq_ok_iff.2 (congrArg PortWord.command (commandWord_eq_or 0xA i)), fun hi => exec_readSlotTs_of_ge hi s,
    fun k hk => ⟨exec_readSlotTs_of_eq hk s, fun hnone => ?_⟩⟩
  rw [exec_readSlotTs_of_eq hk, hnone]
  rfl

/-- Settles O45: bits 3:0 of the answer are the count. -/
theorem readStatusAnswersCountAndCapacity : Obligations.ReadStatusAnswersCountAndCapacity := by
  refine ⟨decode_encode .readStatus, fun s => ⟨_, rfl, ?_, fun hs => ?_⟩⟩
  · rw [← statusWord_eq_setWidth]
    rfl
  · rwa [respond_result, statusWord_count]

end Sys2Proof.Machine

/-!
PROOFS. 60_exceptions.md: the block raises no exception and never stops (R260).
-/

namespace Sys2Proof.Machine

/-- The invariant rules out every state the model refuses (93_implementation_defined.md section 1). -/
theorem Inv.admitted {s : State} (hs : Inv s) : refusalOf s = none :=
  (refusalOf_eq_none_iff s).2 ⟨hs.legal, hs.range⟩

/-- Progress: a state that meets the invariant has its step on whatever input it takes. -/
theorem step_next_of_inv {s : State} (hs : Inv s) : ∃ t, step s = .next t := by
  rw [step, stepOn_of_admitted hs.nextInput.admitted]
  exact perform_next _ _

/-- Settles O8, by induction on the number of steps: the first step is there by `step_next_of_inv`, and it keeps the
invariant for the rest. -/
theorem theBlockNeverStops : Obligations.TheBlockNeverStops := by
  intro s hs k
  induction k generalizing s with
  | zero => exact ⟨s, rfl, hs⟩
  | succ k ih =>
    obtain ⟨u, hu⟩ := step_next_of_inv hs
    obtain ⟨t, hrun, ht⟩ := ih u (everyStepKeepsTheInvariant s u hs hu)
    exact ⟨t, (run_succ_of_next (M := Sys2Proof.core) hu k).trans hrun, ht⟩

end Sys2Proof.Machine

/-!
PROOFS. 70_reset_and_hazards.md: the first decoder step after reset release (R291).
-/

namespace Sys2Proof.Machine

/-- From an empty accumulator a step makes no click: it stores its move (R114, R115). -/
theorem decoderStep_pulses_of_zero {s : State} (h : s.pulses = 0) (cur : Code) :
    (decoderStep cur s).pulses.toInt = pulseMove s.params.invert s.prev cur := by
  have hmoved : movedPulses s.params.invert s.prev s.pulses cur = pulseMove s.params.invert s.prev cur := by
    simp [movedPulses, h]
  obtain ⟨hlo, hhi⟩ := pulseMove_bound s.params.invert s.prev cur
  obtain ⟨hsettled, _⟩ := settledPulses_spec (p1 := pulseMove s.params.invert s.prev cur) (by omega)
  rw [clickOf_eq_zero (by omega) (by omega), mul_zero, zero_add] at hsettled
  calc (decoderStep cur s).pulses.toInt
      = (settledPulses (movedPulses s.params.invert s.prev s.pulses cur)).toInt := rfl
    _ = pulseMove s.params.invert s.prev cur := by rw [hmoved, hsettled]

/-- Settles O12: `prev` is the resting code, so a step on it is idle, and the accumulator of the first step is its move. -/
theorem resetReleaseSamplesTheEncoder : Obligations.ResetReleaseSamplesTheEncoder := by
  intro P inp a b s
  have hidle : decoderStep s.prev s = s := decoderStep_prev (atRelease_range P inp).pulses
  exact ⟨rfl, congrArg Host.Outcome.next hidle, _, rfl, decoderStep_pulses_of_zero (s := s) rfl _⟩

end Sys2Proof.Machine
